-- ==== Sys2Proof/Word.lean ====
section
/-!
DEFINITION. The word types of TBN-CORE. Command words and the 64-bit CSRs are bit vectors; limbs are natural
numbers below BASE, as the spec's own pseudocode computes on naturals (00_scope.md R13; log 16).
-/

namespace Sys2Proof

/-- A command word, written to CMD (30_encoding.md R80). -/
abbrev CmdWord := BitVec 32

/-- A 64-bit CSR value: ARG, RESULT and the data of a host access (10_state.md R34, R35). -/
abbrev Native := BitVec 64

/-- The index of a value register V0 to V15 (10_state.md R20). -/
abbrev Reg := Fin 16

/-- The 16-bit unsigned limb index of format L (30_encoding.md R83, R84). -/
abbrev LimbIdx := Fin 65536

end Sys2Proof
end

