-- ==== Sys2Proof/Config.lean ====
section
/-!
DEFINITION. The elaboration parameters W and N (00_scope.md R4 to R7) and the free values of the model: constants
with no body, so that nothing can be proved of them (log 7, log 10).
-/

namespace Sys2Proof

/-- A legal pair (W, N): no TBN-CORE exists outside these ranges (00_scope.md R4, R5, R7). -/
structure Config where
  /-- Limb width in bits. -/
  W : Nat
  /-- Capacity: limbs in a value register. -/
  N : Nat
  hW : W = 8 ∨ W = 16 ∨ W = 32 ∨ W = 64
  hN : 1 ≤ N ∧ N ≤ 65536
  deriving DecidableEq, Repr

/-- The default configuration: 32 limbs of 32 bits (00_scope.md R4, R5). -/
def Config.default : Config := ⟨32, 32, by decide, by decide⟩

/-- Elaboration of a pair (W, N): a malformed configuration is refused (00_scope.md R7). -/
def Config.elaborate (w n : Nat) : Option Config :=
  if h : (w = 8 ∨ w = 16 ∨ w = 32 ∨ w = 64) ∧ (1 ≤ n ∧ n ≤ 65536) then some ⟨w, n, h.1, h.2⟩ else none

/-- BASE = 2^W (00_scope.md R6). -/
def Config.base (c : Config) : Nat := 2 ^ c.W

/-- TB = N · W, the total bit width (00_scope.md R6). -/
def Config.totalBits (c : Config) : Nat := c.N * c.W

/-- BASE^N = 2^TB, the modulus every wrapped result is reduced by (00_scope.md R6). -/
def Config.modulus (c : Config) : Nat := c.base ^ c.N

/-- MAXV = BASE^N - 1 (00_scope.md R6). -/
def Config.maxv (c : Config) : Nat := c.modulus - 1

/-- NREG = 16 (00_scope.md R6). -/
def Config.nreg : Nat := 16

/-- FREE VALUE (log 7): what limb `limb` of register `reg` holds after the `count`-th abandonment of a pending
command that would have written that register (60_exceptions.md R271, 93_implementation_defined.md S2). -/
opaque Config.freeLimb (count reg limb : Nat) : Nat

/-- FREE VALUE (log 7, log 10): 64 bits the spec leaves open, the `count`-th of them: RESULT after an abandoned
TON or GETL (60_exceptions.md R271), and the data of a wrong-width read in the fault state. -/
opaque Config.freeData (count : Nat) : Native

end Sys2Proof
end

