-- ==== Sys2Proof/Syntax.lean ====
section
/-!
DEFINITION. The command set: one constructor of Instr per row of spec/opcode_table.json (30_encoding.md R85), the
opcodes, and the fault cause codes (60_exceptions.md R270).
-/

namespace Sys2Proof

/-- A decoded command. Operands stand destinations first, then sources, as in the syntax of 30_encoding.md R97. -/
inductive Instr where
  /-- NOP (46_move_and_native.md R240) -/
  | nop
  /-- CLR vd (46_move_and_native.md R241) -/
  | clr (rd : Reg)
  /-- MOV vd, vs1 (46_move_and_native.md R242) -/
  | mov (rd rs1 : Reg)
  /-- LDN vd (46_move_and_native.md R243) -/
  | ldn (rd : Reg)
  /-- TON vs1 (46_move_and_native.md R244) -/
  | ton (rs1 : Reg)
  /-- SETL vr, idx (46_move_and_native.md R245) -/
  | setl (r : Reg) (idx : LimbIdx)
  /-- GETL vr, idx (46_move_and_native.md R246) -/
  | getl (r : Reg) (idx : LimbIdx)
  /-- CMP vs1, vs2 (41_comparator.md R110) -/
  | cmp (rs1 rs2 : Reg)
  /-- EQ vs1, vs2 (41_comparator.md R111) -/
  | eq (rs1 rs2 : Reg)
  /-- ISZ vs1 (41_comparator.md R112) -/
  | isz (rs1 : Reg)
  /-- ADD vd, vs1, vs2 (42_additive.md R130) -/
  | add (rd rs1 rs2 : Reg)
  /-- SUB vd, vs1, vs2 (42_additive.md R131) -/
  | sub (rd rs1 rs2 : Reg)
  /-- INC vd, vs1 (42_additive.md R132) -/
  | inc (rd rs1 : Reg)
  /-- DEC vd, vs1 (42_additive.md R133) -/
  | dec (rd rs1 : Reg)
  /-- MUL vd, vs1, vs2 (43_multiply.md R160) -/
  | mul (rd rs1 rs2 : Reg)
  /-- DIVMOD vq, vr, vs1, vs2: rd is the quotient, rd2 the remainder (44_divide.md R180) -/
  | divmod (rd rd2 rs1 rs2 : Reg)
  /-- DIV vd, vs1, vs2 (44_divide.md R181) -/
  | div (rd rs1 rs2 : Reg)
  /-- MOD vd, vs1, vs2 (44_divide.md R182) -/
  | mod (rd rs1 rs2 : Reg)
  /-- AND vd, vs1, vs2 (45_bitwise.md R210) -/
  | and (rd rs1 rs2 : Reg)
  /-- OR vd, vs1, vs2 (45_bitwise.md R211) -/
  | or (rd rs1 rs2 : Reg)
  /-- XOR vd, vs1, vs2 (45_bitwise.md R212) -/
  | xor (rd rs1 rs2 : Reg)
  /-- SHL vd, vs1 (45_bitwise.md R213) -/
  | shl (rd rs1 : Reg)
  /-- SHR vd, vs1 (45_bitwise.md R214) -/
  | shr (rd rs1 : Reg)
  deriving DecidableEq, Repr

/-- The 23 assigned opcodes (30_encoding.md R85, R89). -/
inductive Opcode where
  | nop | clr | mov | ldn | ton | setl | getl
  | cmp | eq | isz
  | add | sub | inc | dec
  | mul | divmod | div | mod
  | and | or | xor | shl | shr
  deriving DecidableEq, Repr

/-- The fault causes (60_exceptions.md R270). Code 7 is reserved and never raised, so no constructor stands for
it (93_implementation_defined.md E6). -/
inductive Cause where
  | none
  | illegalOpcode
  | reservedNonzero
  | operandConflict
  | badLimbIndex
  | divideByZero
  | hostProtocol
  deriving DecidableEq, Repr

/-- The registers a command writes (10_state.md R22). -/
def Instr.dests : Instr → List Reg
  | .nop => []
  | .clr rd => [rd]
  | .mov rd _ => [rd]
  | .ldn rd => [rd]
  | .ton _ => []
  | .setl r _ => [r]
  | .getl _ _ => []
  | .cmp _ _ => []
  | .eq _ _ => []
  | .isz _ => []
  | .add rd _ _ => [rd]
  | .sub rd _ _ => [rd]
  | .inc rd _ => [rd]
  | .dec rd _ => [rd]
  | .mul rd _ _ => [rd]
  | .divmod rd rd2 _ _ => [rd, rd2]
  | .div rd _ _ => [rd]
  | .mod rd _ _ => [rd]
  | .and rd _ _ => [rd]
  | .or rd _ _ => [rd]
  | .xor rd _ _ => [rd]
  | .shl rd _ => [rd]
  | .shr rd _ => [rd]

/-- The value registers a command reads (10_state.md R22). -/
def Instr.sources : Instr → List Reg
  | .nop => []
  | .clr _ => []
  | .mov _ rs1 => [rs1]
  | .ldn _ => []
  | .ton rs1 => [rs1]
  | .setl r _ => [r]
  | .getl r _ => [r]
  | .cmp rs1 rs2 => [rs1, rs2]
  | .eq rs1 rs2 => [rs1, rs2]
  | .isz rs1 => [rs1]
  | .add _ rs1 rs2 => [rs1, rs2]
  | .sub _ rs1 rs2 => [rs1, rs2]
  | .inc _ rs1 => [rs1]
  | .dec _ rs1 => [rs1]
  | .mul _ rs1 rs2 => [rs1, rs2]
  | .divmod _ _ rs1 rs2 => [rs1, rs2]
  | .div _ rs1 rs2 => [rs1, rs2]
  | .mod _ rs1 rs2 => [rs1, rs2]
  | .and _ rs1 rs2 => [rs1, rs2]
  | .or _ rs1 rs2 => [rs1, rs2]
  | .xor _ rs1 rs2 => [rs1, rs2]
  | .shl _ rs1 => [rs1]
  | .shr _ rs1 => [rs1]

/-- Only TON and GETL write RESULT (10_state.md R35). -/
def Instr.writesResult : Instr → Bool
  | .nop => false
  | .clr _ => false
  | .mov _ _ => false
  | .ldn _ => false
  | .ton _ => true
  | .setl _ _ => false
  | .getl _ _ => true
  | .cmp _ _ => false
  | .eq _ _ => false
  | .isz _ => false
  | .add _ _ _ => false
  | .sub _ _ _ => false
  | .inc _ _ => false
  | .dec _ _ => false
  | .mul _ _ _ => false
  | .divmod _ _ _ _ => false
  | .div _ _ _ => false
  | .mod _ _ _ => false
  | .and _ _ _ => false
  | .or _ _ _ => false
  | .xor _ _ _ => false
  | .shl _ _ => false
  | .shr _ _ => false

/-- LDN, SETL, SHL and SHR take an operand from ARG (10_state.md R22, R34). -/
def Instr.readsArg : Instr → Bool
  | .nop => false
  | .clr _ => false
  | .mov _ _ => false
  | .ldn _ => true
  | .ton _ => false
  | .setl _ _ => true
  | .getl _ _ => false
  | .cmp _ _ => false
  | .eq _ _ => false
  | .isz _ => false
  | .add _ _ _ => false
  | .sub _ _ _ => false
  | .inc _ _ => false
  | .dec _ _ => false
  | .mul _ _ _ => false
  | .divmod _ _ _ _ => false
  | .div _ _ _ => false
  | .mod _ _ _ => false
  | .and _ _ _ => false
  | .or _ _ _ => false
  | .xor _ _ _ => false
  | .shl _ _ => true
  | .shr _ _ => true

end Sys2Proof
end

