-- ==== Sys2Proof/WellFormed.lean ====
section
/-!
DEFINITION. Well-formed commands: the operand conditions the register and index types do not carry already
(30_encoding.md R90). A register field is 4 bits and a limb index 16 bits by type (R84).
-/

namespace Sys2Proof

/-- A command that decoding accepts at capacity `n`: DIVMOD names two different destinations (10_state.md R23),
and a limb index is below N (20_memory.md R63). -/
def Instr.wellFormed (n : Nat) : Instr → Bool
  | .nop => true
  | .clr _ => true
  | .mov _ _ => true
  | .ldn _ => true
  | .ton _ => true
  | .setl _ idx => decide (idx.val < n)
  | .getl _ idx => decide (idx.val < n)
  | .cmp _ _ => true
  | .eq _ _ => true
  | .isz _ => true
  | .add _ _ _ => true
  | .sub _ _ _ => true
  | .inc _ _ => true
  | .dec _ _ => true
  | .mul _ _ _ => true
  | .divmod rd rd2 _ _ => decide (rd ≠ rd2)
  | .div _ _ _ => true
  | .mod _ _ _ => true
  | .and _ _ _ => true
  | .or _ _ _ => true
  | .xor _ _ _ => true
  | .shl _ _ => true
  | .shr _ _ => true

end Sys2Proof
end

