-- ==== Sys2Proof/Decode.lean ====
section
/-!
DEFINITION. Decoding, total on every 32-bit word and rejecting by cause (30_encoding.md R80 to R90), and the
encoder. The masks and matches are the columns of spec/opcode_table.json (R86).
-/

namespace Sys2Proof

/-- `w[lo+len-1:lo]`, read as an unsigned number (00_scope.md R11). -/
def field (w : CmdWord) (lo len : Nat) : Nat := w.toNat / 2 ^ lo % 2 ^ len

/-- A 4-bit register field (30_encoding.md R84). -/
def regField (w : CmdWord) (lo : Nat) : Reg := Fin.ofNat 16 (field w lo 4)

/-- The 16-bit limb index `zext(w[31:16])` (30_encoding.md R84). -/
def idxField (w : CmdWord) : LimbIdx := Fin.ofNat 65536 (field w 16 16)

/-- Bits 5:0 of the command (30_encoding.md R85). -/
def Opcode.code : Opcode → Nat
  | .nop => 0x00
  | .clr => 0x01
  | .mov => 0x02
  | .ldn => 0x03
  | .ton => 0x04
  | .setl => 0x05
  | .getl => 0x06
  | .cmp => 0x08
  | .eq => 0x09
  | .isz => 0x0A
  | .add => 0x10
  | .sub => 0x11
  | .inc => 0x12
  | .dec => 0x13
  | .mul => 0x18
  | .divmod => 0x1C
  | .div => 0x1D
  | .mod => 0x1E
  | .and => 0x20
  | .or => 0x21
  | .xor => 0x22
  | .shl => 0x24
  | .shr => 0x25

/-- The set ASSIGNED of 30_encoding.md R89. -/
def Opcode.all : List Opcode :=
  [.nop, .clr, .mov, .ldn, .ton, .setl, .getl, .cmp, .eq, .isz, .add, .sub, .inc, .dec, .mul, .divmod, .div, .mod,
    .and, .or, .xor, .shl, .shr]

/-- The assigned opcode of a value of bits 5:0, if it is one (30_encoding.md R87). -/
def Opcode.ofCode (c : Nat) : Option Opcode := Opcode.all.find? fun o => o.code == c

/-- `mask(op)`: a 1 in every bit except those of the fields the opcode uses (30_encoding.md R86). -/
def Opcode.mask : Opcode → CmdWord
  | .nop => 0xFFFFFFFF#32
  | .clr => 0xFFFFFC3F#32
  | .mov => 0xFFFFC03F#32
  | .ldn => 0xFFFFFC3F#32
  | .ton => 0xFFFFC3FF#32
  | .setl => 0x0000FC3F#32
  | .getl => 0x0000FC3F#32
  | .cmp => 0xFFFC03FF#32
  | .eq => 0xFFFC03FF#32
  | .isz => 0xFFFFC3FF#32
  | .add => 0xFFFC003F#32
  | .sub => 0xFFFC003F#32
  | .inc => 0xFFFFC03F#32
  | .dec => 0xFFFFC03F#32
  | .mul => 0xFFFC003F#32
  | .divmod => 0xFFC0003F#32
  | .div => 0xFFFC003F#32
  | .mod => 0xFFFC003F#32
  | .and => 0xFFFC003F#32
  | .or => 0xFFFC003F#32
  | .xor => 0xFFFC003F#32
  | .shl => 0xFFFFC03F#32
  | .shr => 0xFFFFC03F#32

/-- `match(op)`: the opcode in bits 5:0 and every other bit 0 (30_encoding.md R86). -/
def Opcode.pattern (o : Opcode) : CmdWord := BitVec.ofNat 32 o.code

/-- The command of an assigned opcode with its operands read from the fields of 30_encoding.md R82 and R83. -/
def assemble (o : Opcode) (w : CmdWord) : Instr :=
  let rd := regField w 6
  let rs1 := regField w 10
  let rs2 := regField w 14
  let rd2 := regField w 18
  match o with
  | .nop => .nop
  | .clr => .clr rd
  | .mov => .mov rd rs1
  | .ldn => .ldn rd
  | .ton => .ton rs1
  | .setl => .setl rd (idxField w)
  | .getl => .getl rd (idxField w)
  | .cmp => .cmp rs1 rs2
  | .eq => .eq rs1 rs2
  | .isz => .isz rs1
  | .add => .add rd rs1 rs2
  | .sub => .sub rd rs1 rs2
  | .inc => .inc rd rs1
  | .dec => .dec rd rs1
  | .mul => .mul rd rs1 rs2
  | .divmod => .divmod rd rd2 rs1 rs2
  | .div => .div rd rs1 rs2
  | .mod => .mod rd rs1 rs2
  | .and => .and rd rs1 rs2
  | .or => .or rd rs1 rs2
  | .xor => .xor rd rs1 rs2
  | .shl => .shl rd rs1
  | .shr => .shr rd rs1

/-- The operand checks of decoding: OPERAND_CONFLICT, then BAD_LIMB_INDEX (30_encoding.md R90). -/
def operandCause (n : Nat) : Instr → Option Cause
  | .divmod rd rd2 _ _ => if rd = rd2 then some .operandConflict else none
  | .setl _ idx => if n ≤ idx.val then some .badLimbIndex else none
  | .getl _ idx => if n ≤ idx.val then some .badLimbIndex else none
  | .nop => none
  | .clr _ => none
  | .mov _ _ => none
  | .ldn _ => none
  | .ton _ => none
  | .cmp _ _ => none
  | .eq _ _ => none
  | .isz _ => none
  | .add _ _ _ => none
  | .sub _ _ _ => none
  | .inc _ _ => none
  | .dec _ _ => none
  | .mul _ _ _ => none
  | .div _ _ _ => none
  | .mod _ _ _ => none
  | .and _ _ _ => none
  | .or _ _ _ => none
  | .xor _ _ _ => none
  | .shl _ _ => none
  | .shr _ _ => none

/-- Decoding a command word at capacity `n`: the checks run in this order and the first that fails decides the
cause (30_encoding.md R90). -/
def decode (n : Nat) (w : CmdWord) : Except Cause Instr :=
  match Opcode.ofCode (field w 0 6) with
  | none => .error .illegalOpcode
  | some o =>
    if w &&& o.mask ≠ o.pattern then .error .reservedNonzero
    else
      match operandCause n (assemble o w) with
      | some c => .error c
      | none => .ok (assemble o w)

/-- A format R word (30_encoding.md R82). A field the opcode does not use is passed as 0 (R86). -/
def formatR (o : Opcode) (rd rs1 rs2 rd2 : Reg) : CmdWord :=
  BitVec.ofNat 32 (o.code + rd.val * 2 ^ 6 + rs1.val * 2 ^ 10 + rs2.val * 2 ^ 14 + rd2.val * 2 ^ 18)

/-- A format L word (30_encoding.md R83). -/
def formatL (o : Opcode) (r : Reg) (idx : LimbIdx) : CmdWord :=
  BitVec.ofNat 32 (o.code + r.val * 2 ^ 6 + idx.val * 2 ^ 16)

/-- The word of a command, from the field layouts of 30_encoding.md R82, R83 and the opcode map R85. -/
def encode : Instr → CmdWord
  | .nop => formatR .nop 0 0 0 0
  | .clr rd => formatR .clr rd 0 0 0
  | .mov rd rs1 => formatR .mov rd rs1 0 0
  | .ldn rd => formatR .ldn rd 0 0 0
  | .ton rs1 => formatR .ton 0 rs1 0 0
  | .setl r idx => formatL .setl r idx
  | .getl r idx => formatL .getl r idx
  | .cmp rs1 rs2 => formatR .cmp 0 rs1 rs2 0
  | .eq rs1 rs2 => formatR .eq 0 rs1 rs2 0
  | .isz rs1 => formatR .isz 0 rs1 0 0
  | .add rd rs1 rs2 => formatR .add rd rs1 rs2 0
  | .sub rd rs1 rs2 => formatR .sub rd rs1 rs2 0
  | .inc rd rs1 => formatR .inc rd rs1 0 0
  | .dec rd rs1 => formatR .dec rd rs1 0 0
  | .mul rd rs1 rs2 => formatR .mul rd rs1 rs2 0
  | .divmod rd rd2 rs1 rs2 => formatR .divmod rd rs1 rs2 rd2
  | .div rd rs1 rs2 => formatR .div rd rs1 rs2 0
  | .mod rd rs1 rs2 => formatR .mod rd rs1 rs2 0
  | .and rd rs1 rs2 => formatR .and rd rs1 rs2 0
  | .or rd rs1 rs2 => formatR .or rd rs1 rs2 0
  | .xor rd rs1 rs2 => formatR .xor rd rs1 rs2 0
  | .shl rd rs1 => formatR .shl rd rs1 0 0
  | .shr rd rs1 => formatR .shr rd rs1 0 0

/-- The opcode of a command (30_encoding.md R85). -/
def Instr.opcode : Instr → Opcode
  | .nop => .nop
  | .clr _ => .clr
  | .mov _ _ => .mov
  | .ldn _ => .ldn
  | .ton _ => .ton
  | .setl _ _ => .setl
  | .getl _ _ => .getl
  | .cmp _ _ => .cmp
  | .eq _ _ => .eq
  | .isz _ => .isz
  | .add _ _ _ => .add
  | .sub _ _ _ => .sub
  | .inc _ _ => .inc
  | .dec _ _ => .dec
  | .mul _ _ _ => .mul
  | .divmod _ _ _ _ => .divmod
  | .div _ _ _ => .div
  | .mod _ _ _ => .mod
  | .and _ _ _ => .and
  | .or _ _ _ => .or
  | .xor _ _ _ => .xor
  | .shl _ _ => .shl
  | .shr _ _ => .shr

/-- The table's word of a row: every command is one 32-bit word (30_encoding.md R80), decoded at the default
capacity N = 32 (log 14). -/
def decodeTableWord (nbits w : Nat) : Option Instr :=
  match decode Config.default.N (BitVec.ofNat 32 (w % 2 ^ nbits)) with
  | .ok i => some i
  | .error _ => none

end Sys2Proof
end

