-- ==== Sys2Proof/Machine/State.lean ====
section
/-!
DEFINITION. The state of TBN-CORE (10_state.md R20 to R43), the moves of its agents as plain data
(00_scope.md R10), the reasons a step can stop, and the state after reset (10_state.md R41).
-/

namespace Sys2Proof.Machine

/-- STATUS.REL: 0 NONE, 1 LESS, 2 EQUAL, 3 GREATER (10_state.md R28). -/
inductive Rel where
  | none
  | less
  | equal
  | greater
  deriving DecidableEq, Repr

/-- PEND, the pending-command latch: a command word, the marker INIT, or nothing (10_state.md R39). -/
inductive Pending where
  | none
  | init
  | command (w : CmdWord)
  deriving DecidableEq, Repr

/-- One host CSR access: its byte offset, its width in bits and, for a write, its data, of which an access narrower
than 64 bits carries the low bits (10_state.md R37; log 5). -/
inductive HostAccess where
  | read (offset width : Nat)
  | write (offset width : Nat) (data : Native)
  deriving DecidableEq, Repr

/-- One move of one of the three agents (00_scope.md R10): a host access, a step of the execution unit, or a reset. -/
inductive Turn where
  | host (a : HostAccess)
  | unit
  | reset
  deriving DecidableEq, Repr

/-- The whole state. The fields from `v` to `pend` are the spec's complete list (10_state.md R43). The fields `cfg`,
`turns`, `readData` and `freeCount` are the model's own (log 1, 2, 4, 7). -/
structure State where
  /-- The elaboration parameters W and N: a parameter of the machine that no step changes (10_state.md R42; log 1). -/
  cfg : Config
  /-- V0 to V15: N limbs of W bits each, limb 0 least significant (10_state.md R20). -/
  v : Vector (List Nat) 16
  /-- CMD (10_state.md R33) -/
  cmd : CmdWord
  /-- ARG (10_state.md R34) -/
  arg : Native
  /-- RESULT (10_state.md R35) -/
  result : Native
  /-- STATUS.BUSY (10_state.md R29) -/
  busy : Bool
  /-- STATUS.OVF (10_state.md R26) -/
  ovf : Bool
  /-- STATUS.COND (10_state.md R27) -/
  cond : Bool
  /-- STATUS.REL (10_state.md R28) -/
  rel : Rel
  /-- STATUS.FAULT (10_state.md R30) -/
  fault : Bool
  /-- STATUS.CAUSE (10_state.md R31) -/
  cause : Cause
  /-- PEND (10_state.md R39) -/
  pend : Pending
  /-- The coming moves of the agents, first move first; when it is empty the unit moves whenever it is enabled (log 2). -/
  turns : List Turn
  /-- The data the last host read that was performed delivered to the host (log 4). -/
  readData : Option Native
  /-- How many free values have been drawn (log 7). -/
  freeCount : Nat
  deriving DecidableEq, Repr

/-- Why a step stops the model with no next state. TBN-CORE's own faults are NEXT states (60_exceptions.md R271). -/
inductive Fault where
  /-- Raised by the unit's step when BUSY = 1, FAULT = 0 and nothing is pending: the spec gives PEND a command or INIT
  whenever BUSY = 1 (10_state.md R29, R33, R39), so no run from reset reaches it. Safe (log 11). -/
  | busyWithNothingPending
  deriving DecidableEq, Repr

/-- Why a step refuses an instruction. -/
inductive Refusal where
  /-- Raised by exec for an instruction that has no meaning yet. No arm raises it: every instruction has one. Safe. -/
  | notModelled (mnemonic : String)
  deriving DecidableEq, Repr

/-- What a step answers. -/
abbrev Result := Host.Outcome State Fault Refusal

/-- The state right after reset in the configuration `c` (10_state.md R41; log 17 for the model's own fields). -/
def State.resetOf (c : Config) : State where
  cfg := c
  v := Vector.replicate 16 (List.replicate c.N 0)
  cmd := 0
  arg := 0
  result := 0
  busy := true
  ovf := false
  cond := false
  rel := .none
  fault := false
  cause := .none
  pend := .init
  turns := []
  readData := none
  freeCount := 0

/-- The state right after reset in the default configuration W = 32, N = 32 (00_scope.md R4, R5; log 1). -/
def State.reset : State := State.resetOf Config.default

end Sys2Proof.Machine
end

