-- ==== Sys2Proof/Machine/Flags.lean ====
section
/-!
DEFINITION. The STATUS response fields OVF, COND and REL as a command computes them (10_state.md R26 to R28,
30_encoding.md R96), and the codes of REL and CAUSE in the STATUS word.
-/

namespace Sys2Proof.Machine

/-- The three response fields a completed command writes (30_encoding.md R96). -/
structure Response where
  ovf : Bool
  cond : Bool
  rel : Rel
  deriving DecidableEq, Repr

/-- A command that gives no value: 0, 0 and NONE (30_encoding.md R96). -/
def Response.clear : Response := ⟨false, false, .none⟩

/-- A fallible command: OVF is 1 exactly when its true result did not fit (10_state.md R26). -/
def Response.overflow (b : Bool) : Response := ⟨b, false, .none⟩

/-- A predicate: COND is its result (10_state.md R27). -/
def Response.predicate (b : Bool) : Response := ⟨false, b, .none⟩

/-- A comparison: REL is its result (10_state.md R28). -/
def Response.relation (r : Rel) : Response := ⟨false, false, r⟩

/-- The order of two numbers as a value of REL (41_comparator.md R110). -/
def Rel.ofNats (a b : Nat) : Rel := if a < b then .less else if a = b then .equal else .greater

/-- The 2-bit code of REL (10_state.md R28). -/
def Rel.code : Rel → Nat
  | .none => 0
  | .less => 1
  | .equal => 2
  | .greater => 3

end Sys2Proof.Machine

/-- The 3-bit code of a cause (60_exceptions.md R270). -/
def Sys2Proof.Cause.code : Sys2Proof.Cause → Nat
  | .none => 0
  | .illegalOpcode => 1
  | .reservedNonzero => 2
  | .operandConflict => 3
  | .badLimbIndex => 4
  | .divideByZero => 5
  | .hostProtocol => 6
end

