-- ==== Sys2Proof/Machine/Operands.lean ====
section
/-!
DEFINITION. Operands: limb vectors and their values (00_scope.md R12), the registers, one limb, ARG, and the active
limb count (41_comparator.md R113).
-/

namespace Sys2Proof.Machine

/-- `val`: the value of a limb vector, least significant limb first (00_scope.md R12). -/
def val (base : Nat) : List Nat → Nat
  | [] => 0
  | l :: ls => l + base * val base ls

/-- `enc(x)` in `n` limbs: limb i is `(x div BASE^i) mod BASE` (00_scope.md R12). -/
def enc (base : Nat) : Nat → Nat → List Nat
  | 0, _ => []
  | n + 1, x => x % base :: enc base n (x / base)

/-- The active limb count: the index of the most significant non-zero limb plus one, 0 for the zero vector
(41_comparator.md R113). -/
def alc : List Nat → Nat
  | [] => 0
  | l :: ls => if alc ls = 0 then (if l = 0 then 0 else 1) else alc ls + 1

/-- `V[r]` as its limb vector (10_state.md R20). No register is hardwired (R22). -/
def State.reg (s : State) (r : Reg) : List Nat := s.v.get r

/-- `V[r].limb[i]` (00_scope.md R12). -/
def State.limb (s : State) (r : Reg) (i : Nat) : Nat := (s.reg r).getD i 0

/-- `val(V[r])` (00_scope.md R12). -/
def State.value (s : State) (r : Reg) : Nat := val s.cfg.base (s.reg r)

/-- `ARGV`, the unsigned value of ARG (00_scope.md R14, 30_encoding.md R84). -/
def State.argv (s : State) : Nat := s.arg.toNat

/-- `enc(x)` at the machine's own width and capacity (00_scope.md R12). -/
def State.encode (s : State) (x : Nat) : List Nat := enc s.cfg.base s.cfg.N x

/-- The divisor named by rs2 is zero (30_encoding.md R94). -/
def State.divisorZero (s : State) (rs2 : Reg) : Bool := s.value rs2 == 0

end Sys2Proof.Machine
end

