-- ==== Sys2Proof/Machine/Ops.lean ====
section
/-!
DEFINITION. The shared operations: register and limb writes, completing a command (30_encoding.md R94, R96), entering
the fault state (60_exceptions.md R271), the STATUS and CONFIG words (10_state.md R26 to R36), delivering read data,
and abandoning a pending command (60_exceptions.md R271). There is no return from a fault: only reset leaves the
fault state (60_exceptions.md R276), and `resetAgent` is that operation.
-/

namespace Sys2Proof.Machine

/-- `V[r] <- x` (00_scope.md R12): no register is hardwired (10_state.md R22). -/
def State.setReg (s : State) (r : Reg) (x : List Nat) : State := { s with v := s.v.set r.val x r.isLt }

/-- `LimbWrite(r, i, x)`: the other limbs are kept (00_scope.md R13, 46_move_and_native.md R245). -/
def State.setLimb (s : State) (r : Reg) (i : Nat) (x : Nat) : State := s.setReg r ((s.reg r).set i x)

/-- `RESULT <- x` (10_state.md R35). -/
def State.setResult (s : State) (x : Native) : State := { s with result := x }

/-- The end of a completed command: the three response fields are written, BUSY falls and the latch is consumed
(30_encoding.md R94, R96, 10_state.md R39; log 6). -/
def State.complete (s : State) (r : Response) : State :=
  { s with ovf := r.ovf, cond := r.cond, rel := r.rel, busy := false, pend := .none }

/-- `raise FAULT(c)`: nothing else is written, so a fault of a command is precise (60_exceptions.md R271). -/
def State.raise (s : State) (c : Cause) : State :=
  { s with fault := true, cause := c, busy := false, pend := .none }

/-- The end of post-reset initialisation: only BUSY falls (70_reset_and_hazards.md R301; log 6). -/
def State.endInit (s : State) : State := { s with busy := false, pend := .none }

/-- An accepted CMD write: three things at once (10_state.md R33). -/
def State.accept (s : State) (w : CmdWord) : State := { s with cmd := w, pend := .command w, busy := true }

/-- A write of ARG (10_state.md R34). -/
def State.setArg (s : State) (x : Native) : State := { s with arg := x }

/-- A host read hands its data to the host; the block's own state is unchanged (20_memory.md R66; log 4). -/
def State.deliver (s : State) (x : Native) : State := { s with readData := some x }

/-- A host read whose data the spec leaves open hands over a free value (log 10). -/
def State.deliverFree (s : State) : State :=
  { s with readData := some (Config.freeData s.freeCount), freeCount := s.freeCount + 1 }

/-- Put the coming moves of the agents (log 2). -/
def State.setTurns (s : State) (ts : List Turn) : State := { s with turns := ts }

/-- The STATUS word (10_state.md section 3, R26 to R32): bits 7:5 and 31:12 read 0. -/
def State.statusWord (s : State) : BitVec 32 :=
  BitVec.ofNat 32 (s.busy.toNat + s.ovf.toNat * 2 ^ 1 + s.cond.toNat * 2 ^ 2 + s.rel.code * 2 ^ 3
    + s.fault.toNat * 2 ^ 8 + s.cause.code * 2 ^ 9)

/-- The CONFIG word, a constant of W and N (10_state.md R36): bits 31:28 read 0. -/
def configWord (c : Config) : BitVec 32 := BitVec.ofNat 32 (c.W + (c.N - 1) * 2 ^ 8 + (Config.nreg - 1) * 2 ^ 24)

/-- FREE VALUE (log 7): the limb vector of an abandoned destination register, each limb below BASE (10_state.md R21). -/
def freeReg (c : Config) (count : Nat) (r : Reg) : List Nat :=
  (List.range c.N).map fun i => Config.freeLimb count r.val i % c.base

/-- The registers `ds` take free contents (log 7). -/
def State.forget (s : State) : List Reg → State
  | [] => s
  | r :: rs => (s.setReg r (freeReg s.cfg s.freeCount r)).forget rs

/-- The command would end in DIVIDE_BY_ZERO (30_encoding.md R94), so it would write nothing. -/
def State.wouldDivideByZero (s : State) : Instr → Bool
  | .divmod _ _ _ rs2 => s.divisorZero rs2
  | .div _ _ rs2 => s.divisorZero rs2
  | .mod _ _ rs2 => s.divisorZero rs2
  | .nop => false
  | .clr _ => false
  | .mov _ _ => false
  | .ldn _ => false
  | .ton _ => false
  | .setl _ _ => false
  | .getl _ _ => false
  | .cmp _ _ => false
  | .eq _ _ => false
  | .isz _ => false
  | .add _ _ _ => false
  | .sub _ _ _ => false
  | .inc _ _ => false
  | .dec _ _ => false
  | .mul _ _ _ => false
  | .and _ _ _ => false
  | .or _ _ _ => false
  | .xor _ _ _ => false
  | .shl _ _ => false
  | .shr _ _ => false

/-- The contents a decoded command would have written become free values (60_exceptions.md R271; log 7, log 8). -/
def State.forgetOutputs (s : State) (i : Instr) : State :=
  let t := s.forget i.dests
  { t with
    result := if i.writesResult then Config.freeData s.freeCount else s.result
    freeCount := s.freeCount + 1 }

/-- A pending command is abandoned: what it would have written is unspecified. A command that would have faulted
writes nothing, and INIT writes no register (60_exceptions.md R271; log 9). -/
def State.abandon (s : State) : State :=
  match s.pend with
  | .none => s
  | .init => s
  | .command w =>
    match decode s.cfg.N w with
    | .error _ => s
    | .ok i => if s.wouldDivideByZero i then s else s.forgetOutputs i

/-- A host protocol violation in the normal state (60_exceptions.md R271, R274). -/
def State.protocolFault (s : State) : State := s.abandon.raise .hostProtocol

end Sys2Proof.Machine
end

