-- ==== Sys2Proof/Machine/Access.lean ====
section
/-!
DEFINITION. The host's CSR accesses: the CSR map, the access rights, the protocol violations and the fault state's
rules (10_state.md R33 to R38, 60_exceptions.md R273, R274).
-/

namespace Sys2Proof.Machine

/-- The five control and status registers (10_state.md R37). -/
inductive Csr where
  | cmd
  | arg
  | result
  | status
  | config
  deriving DecidableEq, Repr

/-- The byte offset of a CSR (10_state.md R37). -/
def Csr.offset : Csr → Nat
  | .cmd => 0x00
  | .arg => 0x08
  | .result => 0x10
  | .status => 0x18
  | .config => 0x20

/-- The width of a CSR in bits (10_state.md R32 to R36). -/
def Csr.width : Csr → Nat
  | .cmd => 32
  | .arg => 64
  | .result => 64
  | .status => 32
  | .config => 32

/-- The CSR at a byte offset, if one is listed there (10_state.md R37). -/
def Csr.at (offset : Nat) : Option Csr := [Csr.cmd, .arg, .result, .status, .config].find? fun c => c.offset == offset

/-- What a read of a CSR returns, zero-extended to 64 bits (10_state.md R32 to R36). -/
def State.csrValue (s : State) : Csr → Native
  | .cmd => s.cmd.setWidth 64
  | .arg => s.arg
  | .result => s.result
  | .status => s.statusWord.setWidth 64
  | .config => (configWord s.cfg).setWidth 64

/-- A read is performed in the normal state: always for CMD, STATUS and CONFIG, for ARG and RESULT while BUSY = 0
(10_state.md R38). -/
def State.mayRead (s : State) : Csr → Bool
  | .cmd => true
  | .arg => !s.busy
  | .result => !s.busy
  | .status => true
  | .config => true

/-- A write is performed in the normal state: CMD and ARG while BUSY = 0, and no other (10_state.md R38). -/
def State.mayWrite (s : State) : Csr → Bool
  | .cmd => !s.busy
  | .arg => !s.busy
  | .result => false
  | .status => false
  | .config => false

/-- A permitted write (10_state.md R33, R34). The other CSRs are never written. -/
def State.csrWrite (s : State) (c : Csr) (data : Native) : State :=
  match c with
  | .cmd => s.accept (data.setWidth 32)
  | .arg => s.setArg data
  | .result => s
  | .status => s
  | .config => s

/-- A host read of `width` bits at `offset`. In the fault state listed CSRs answer their value and unlisted offsets 0
(60_exceptions.md R273); there a read of the wrong width delivers a free value (log 10). In the normal state an
access outside the map, of the wrong width or without the right is a violation (R274). -/
def hostRead (offset width : Nat) (s : State) : State :=
  match Csr.at offset with
  | none => if s.fault then s.deliver 0 else s.protocolFault
  | some c =>
    if s.fault then (if width = c.width then s.deliver (s.csrValue c) else s.deliverFree)
    else if width = c.width ∧ s.mayRead c then s.deliver (s.csrValue c)
    else s.protocolFault

/-- A host write of `width` bits at `offset`: no effect in the fault state (60_exceptions.md R273), and in the normal
state performed or a violation (R274). -/
def hostWrite (offset width : Nat) (data : Native) (s : State) : State :=
  if s.fault then s
  else
    match Csr.at offset with
    | none => s.protocolFault
    | some c => if width = c.width ∧ s.mayWrite c then s.csrWrite c data else s.protocolFault

/-- One atomic step of the host (00_scope.md R10). -/
def hostAccess : HostAccess → State → State
  | .read offset width, s => hostRead offset width s
  | .write offset width data, s => hostWrite offset width data s

end Sys2Proof.Machine
end

