-- ==== Sys2Proof/Machine/Additive.lean ====
section
/-!
DEFINITION. The additive engine: ADD, SUB, INC and DEC, by the limb loops of 42_additive.md R130 to R133.
-/

namespace Sys2Proof.Machine

/-- The adder's loop from limb 0 up: the sum's limbs and the carry out, from the carry in `c` (42_additive.md R130). -/
def addLimbs (base : Nat) : Nat → List Nat → List Nat → List Nat × Nat
  | c, a :: as, b :: bs =>
    let t := a + b + c
    let r := addLimbs base (t / base) as bs
    (t % base :: r.1, r.2)
  | c, _, _ => ([], c)

/-- The subtractor's loop: the difference's limbs and the borrow out, from the borrow in `br`; the limb difference
is negative exactly when `a < b + br` (42_additive.md R131). -/
def subLimbs (base : Nat) : Nat → List Nat → List Nat → List Nat × Nat
  | br, a :: as, b :: bs =>
    if a < b + br then
      let r := subLimbs base 1 as bs
      ((a + base - (b + br)) :: r.1, r.2)
    else
      let r := subLimbs base 0 as bs
      ((a - (b + br)) :: r.1, r.2)
  | br, _, _ => ([], br)

/-- The increment's loop stops at the first limb that does not become 0; the carry out is 1 when every limb
wrapped (42_additive.md R132, 90_conflicts.md C8). -/
def incLimbs (base : Nat) : List Nat → List Nat × Nat
  | [] => ([], 1)
  | x :: xs =>
    let y := (x + 1) % base
    if y ≠ 0 then (y :: xs, 0)
    else
      let r := incLimbs base xs
      (y :: r.1, r.2)

/-- The decrement's loop stops at the first limb that does not become BASE-1; the borrow out is 1 when every limb
wrapped (42_additive.md R133, 90_conflicts.md C8). -/
def decLimbs (base : Nat) : List Nat → List Nat × Nat
  | [] => ([], 1)
  | x :: xs =>
    let y := (x + base - 1) % base
    if y ≠ base - 1 then (y :: xs, 0)
    else
      let r := decLimbs base xs
      (y :: r.1, r.2)

/-- The end of an additive command: its limbs go to rd and the carry or borrow out to OVF. -/
def State.writeWithCarry (s : State) (rd : Reg) (x : List Nat × Nat) : State :=
  (s.setReg rd x.1).complete (.overflow (x.2 != 0))

/-- ADD (42_additive.md R130). -/
def execAdd (rd rs1 rs2 : Reg) (s : State) : Result :=
  .next (s.writeWithCarry rd (addLimbs s.cfg.base 0 (s.reg rs1) (s.reg rs2)))

/-- SUB (42_additive.md R131). -/
def execSub (rd rs1 rs2 : Reg) (s : State) : Result :=
  .next (s.writeWithCarry rd (subLimbs s.cfg.base 0 (s.reg rs1) (s.reg rs2)))

/-- INC (42_additive.md R132). -/
def execInc (rd rs1 : Reg) (s : State) : Result :=
  .next (s.writeWithCarry rd (incLimbs s.cfg.base (s.reg rs1)))

/-- DEC (42_additive.md R133). -/
def execDec (rd rs1 : Reg) (s : State) : Result :=
  .next (s.writeWithCarry rd (decLimbs s.cfg.base (s.reg rs1)))

end Sys2Proof.Machine
end

