-- ==== Sys2Proof/Machine/Bitwise.lean ====
section
/-!
DEFINITION. The bitwise engine: AND, OR, XOR, SHL and SHR (45_bitwise.md R210 to R216). No command here reports overflow.
-/

namespace Sys2Proof.Machine

/-- One limb of a left shift by `k` whole limbs and `b` bits (45_bitwise.md R213). -/
def shlLimb (w : Nat) (a : List Nat) (k b i : Nat) : Nat :=
  let hi := if k ≤ i then a.getD (i - k) 0 * 2 ^ b % 2 ^ w else 0
  let lo := if 0 < b ∧ k + 1 ≤ i then a.getD (i - k - 1) 0 / 2 ^ (w - b) else 0
  hi ||| lo

/-- One limb of a right shift by `k` whole limbs and `b` bits (45_bitwise.md R214). -/
def shrLimb (w n : Nat) (a : List Nat) (k b i : Nat) : Nat :=
  let lo := if i + k < n then a.getD (i + k) 0 / 2 ^ b else 0
  let hi := if 0 < b ∧ i + k + 1 < n then a.getD (i + k + 1) 0 * 2 ^ (w - b) % 2 ^ w else 0
  lo ||| hi

/-- The left shift by `sh` bits in `n` limbs of `w` bits: 0 from the total width on (45_bitwise.md R213). -/
def shlLimbs (w n : Nat) (a : List Nat) (sh : Nat) : List Nat :=
  if n * w ≤ sh then List.replicate n 0 else (List.range n).map (shlLimb w a (sh / w) (sh % w))

/-- The logical right shift by `sh` bits in `n` limbs of `w` bits (45_bitwise.md R214). -/
def shrLimbs (w n : Nat) (a : List Nat) (sh : Nat) : List Nat :=
  if n * w ≤ sh then List.replicate n 0 else (List.range n).map (shrLimb w n a (sh / w) (sh % w))

/-- The end of a bitwise command: the limbs go to rd and the response fields are cleared (45_bitwise.md R210 to R216). -/
def State.writeClear (s : State) (rd : Reg) (x : List Nat) : State := (s.setReg rd x).complete .clear

/-- AND (45_bitwise.md R210). -/
def execAnd (rd rs1 rs2 : Reg) (s : State) : Result :=
  .next (s.writeClear rd (List.zipWith (fun x y => x &&& y) (s.reg rs1) (s.reg rs2)))

/-- OR (45_bitwise.md R211). -/
def execOr (rd rs1 rs2 : Reg) (s : State) : Result :=
  .next (s.writeClear rd (List.zipWith (fun x y => x ||| y) (s.reg rs1) (s.reg rs2)))

/-- XOR (45_bitwise.md R212). -/
def execXor (rd rs1 rs2 : Reg) (s : State) : Result :=
  .next (s.writeClear rd (List.zipWith (fun x y => x ^^^ y) (s.reg rs1) (s.reg rs2)))

/-- SHL by n = ARG bits (45_bitwise.md R213). -/
def execShl (rd rs1 : Reg) (s : State) : Result :=
  .next (s.writeClear rd (shlLimbs s.cfg.W s.cfg.N (s.reg rs1) s.argv))

/-- SHR by n = ARG bits (45_bitwise.md R214). -/
def execShr (rd rs1 : Reg) (s : State) : Result :=
  .next (s.writeClear rd (shrLimbs s.cfg.W s.cfg.N (s.reg rs1) s.argv))

end Sys2Proof.Machine
end

