-- ==== Sys2Proof/Machine/Comparator.lean ====
section
/-!
DEFINITION. The comparator: CMP, EQ and ISZ (41_comparator.md R110 to R112). No register is written.
-/

namespace Sys2Proof.Machine

/-- The first non-equal pair decides, pairs given most significant first (41_comparator.md R110). -/
def scanPairs : List (Nat × Nat) → Rel
  | [] => .equal
  | (x, y) :: ps => if x ≠ y then (if x < y then .less else .greater) else scanPairs ps

/-- `compare(a, b)`: the scan from limb N-1 down to limb 0 (41_comparator.md R110). -/
def compareLimbs (a b : List Nat) : Rel := scanPairs (a.zip b).reverse

/-- Every limb pair is equal (41_comparator.md R111). -/
def equalLimbs (a b : List Nat) : Bool := (a.zip b).all fun p => p.1 == p.2

/-- Every limb is 0 (41_comparator.md R112). -/
def zeroLimbs (a : List Nat) : Bool := a.all fun x => x == 0

/-- CMP (41_comparator.md R110). -/
def execCmp (rs1 rs2 : Reg) (s : State) : Result :=
  .next (s.complete (.relation (compareLimbs (s.reg rs1) (s.reg rs2))))

/-- EQ (41_comparator.md R111). -/
def execEq (rs1 rs2 : Reg) (s : State) : Result :=
  .next (s.complete (.predicate (equalLimbs (s.reg rs1) (s.reg rs2))))

/-- ISZ (41_comparator.md R112). -/
def execIsz (rs1 : Reg) (s : State) : Result :=
  .next (s.complete (.predicate (zeroLimbs (s.reg rs1))))

end Sys2Proof.Machine
end

