-- ==== Sys2Proof/Machine/Divide.lean ====
section
/-!
DEFINITION. Division: DIVMOD, DIV and MOD (44_divide.md R180 to R182), and the reference long division of R183. The
meanings use the exact quotient and remainder, which every digit method must give (R183; log 15).
-/

namespace Sys2Proof.Machine

/-- The trial subtraction of step 4b: subtract the divisor while the window holds it, counting; `fuel` bounds the count
(44_divide.md R183). The answer is the window and the count. -/
def trialSubtract (divisor : Nat) : Nat → Nat → Nat → Nat × Nat
  | 0, win, d => (win, d)
  | fuel + 1, win, d => if divisor ≤ win then trialSubtract divisor fuel (win - divisor) (d + 1) else (win, d)

/-- Step 4 of the reference method, `k` limbs of the dividend still to append, from the most significant down: the
quotient so far and the window (44_divide.md R183). -/
def digitLoop (base divisor : Nat) (a : List Nat) : Nat → Nat → Nat → Nat × Nat
  | 0, q, win => (q, win)
  | k + 1, q, win =>
    let appended := win * base + a.getD k 0
    let r := trialSubtract divisor appended appended 0
    digitLoop base divisor a k (q * base + r.2) r.1

/-- The reference long division of limb vector `a` by `b`: quotient and remainder (44_divide.md R183). -/
def longDivide (base : Nat) (a b : List Nat) : Nat × Nat :=
  if val base a < val base b then (0, val base a)
  else
    let l := alc a
    let r := alc b
    let win := val base ((a.drop (l - r + 1)).take (r - 1))
    digitLoop base (val base b) a (l - r + 1) 0 win

/-- The check every division makes first: a zero divisor faults and nothing is written (30_encoding.md R94). -/
def State.divided (s : State) (rs2 : Reg) (t : State) : Result :=
  if s.divisorZero rs2 then .next (s.raise .divideByZero) else .next (t.complete .clear)

/-- DIVMOD (44_divide.md R180): quotient to rd, remainder to rd2, both sources read first. Decoding refuses rd = rd2;
a term with rd = rd2 takes the same fault here (log 12). -/
def execDivmod (rd rd2 rs1 rs2 : Reg) (s : State) : Result :=
  if rd = rd2 then .next (s.raise .operandConflict)
  else
    s.divided rs2 ((s.setReg rd (s.encode (s.value rs1 / s.value rs2))).setReg rd2
      (s.encode (s.value rs1 % s.value rs2)))

/-- DIV (44_divide.md R181). -/
def execDiv (rd rs1 rs2 : Reg) (s : State) : Result :=
  s.divided rs2 (s.setReg rd (s.encode (s.value rs1 / s.value rs2)))

/-- MOD (44_divide.md R182). -/
def execMod (rd rs1 rs2 : Reg) (s : State) : Result :=
  s.divided rs2 (s.setReg rd (s.encode (s.value rs1 % s.value rs2)))

end Sys2Proof.Machine
end

