-- ==== Sys2Proof/Machine/Move.lean ====
section
/-!
DEFINITION. Data movement and the native codec: NOP, CLR, MOV, LDN, TON, SETL and GETL
(46_move_and_native.md R240 to R246).
-/

namespace Sys2Proof.Machine

/-- NOP (46_move_and_native.md R240): only the response fields are written. -/
def execNop (s : State) : Result := .next (s.complete .clear)

/-- CLR (46_move_and_native.md R241). -/
def execClr (rd : Reg) (s : State) : Result := .next ((s.setReg rd (s.encode 0)).complete .clear)

/-- MOV (46_move_and_native.md R242): all N limbs are copied. -/
def execMov (rd rs1 : Reg) (s : State) : Result := .next ((s.setReg rd (s.reg rs1)).complete .clear)

/-- LDN (46_move_and_native.md R243, 90_conflicts.md C6): ARGV mod 2^TB, OVF when it does not fit. -/
def execLdn (rd : Reg) (s : State) : Result :=
  .next ((s.setReg rd (s.encode (s.argv % s.cfg.modulus))).complete (.overflow (decide (s.cfg.modulus ≤ s.argv))))

/-- TON (46_move_and_native.md R244, 90_conflicts.md C6): A mod 2^64, OVF when it does not fit. -/
def execTon (rs1 : Reg) (s : State) : Result :=
  .next ((s.setResult (BitVec.ofNat 64 (s.value rs1))).complete (.overflow (decide (2 ^ 64 ≤ s.value rs1))))

/-- SETL (46_move_and_native.md R245): the limb gets ARGV mod BASE, OVF when bits are dropped. Decoding refuses an index
of N or more; a term with one takes the same fault here (log 12). -/
def execSetl (r : Reg) (idx : LimbIdx) (s : State) : Result :=
  if s.cfg.N ≤ idx.val then .next (s.raise .badLimbIndex)
  else .next ((s.setLimb r idx.val (s.argv % s.cfg.base)).complete (.overflow (decide (s.cfg.base ≤ s.argv))))

/-- GETL (46_move_and_native.md R246): one limb, zero-extended. An index of N or more faults (log 12). -/
def execGetl (r : Reg) (idx : LimbIdx) (s : State) : Result :=
  if s.cfg.N ≤ idx.val then .next (s.raise .badLimbIndex)
  else .next ((s.setResult (BitVec.ofNat 64 (s.limb r idx.val))).complete .clear)

end Sys2Proof.Machine
end

