-- ==== Sys2Proof/Machine/Multiply.lean ====
section
/-!
DEFINITION. Schoolbook multiplication: MUL (43_multiply.md R160, R161).
-/

namespace Sys2Proof.Machine

/-- One row of partial products, the pairs (i, j) with i + j < n, each shifted by i + j limbs (43_multiply.md R160). -/
def productRow (base n : Nat) (a b : List Nat) (i : Nat) : Nat :=
  ((List.range (n - i)).map fun j => a.getD i 0 * b.getD j 0 * base ^ (i + j)).sum

/-- `S_keep`, the accumulated rows (43_multiply.md R160). -/
def keptProducts (base n : Nat) (a b : List Nat) : Nat := ((List.range n).map (productRow base n a b)).sum

/-- MUL (43_multiply.md R160): the kept rows mod 2^TB; OVF is 1 exactly when the true product does not fit (R161). -/
def execMul (rd rs1 rs2 : Reg) (s : State) : Result :=
  let kept := keptProducts s.cfg.base s.cfg.N (s.reg rs1) (s.reg rs2)
  .next ((s.setReg rd (s.encode (kept % s.cfg.modulus))).complete
    (.overflow (decide (s.cfg.modulus ≤ s.value rs1 * s.value rs2))))

end Sys2Proof.Machine
end

