-- ==== Sys2Proof/Machine/Dispatch.lean ====
section
/-!
DEFINITION. The dispatch: one arm per command of spec/opcode_table.json (30_encoding.md R85).
-/

namespace Sys2Proof.Machine

-- The effect of one decoded command, run by the execution unit (30_encoding.md R94).
def exec (i : Instr) (s : State) : Host.Outcome State Fault Refusal :=
  match i with
  | .nop => Sys2Proof.Machine.execNop s
  | .clr rd => Sys2Proof.Machine.execClr rd s
  | .mov rd rs1 => Sys2Proof.Machine.execMov rd rs1 s
  | .ldn rd => Sys2Proof.Machine.execLdn rd s
  | .ton rs1 => Sys2Proof.Machine.execTon rs1 s
  | .setl r idx => Sys2Proof.Machine.execSetl r idx s
  | .getl r idx => Sys2Proof.Machine.execGetl r idx s
  | .cmp rs1 rs2 => Sys2Proof.Machine.execCmp rs1 rs2 s
  | .eq rs1 rs2 => Sys2Proof.Machine.execEq rs1 rs2 s
  | .isz rs1 => Sys2Proof.Machine.execIsz rs1 s
  | .add rd rs1 rs2 => Sys2Proof.Machine.execAdd rd rs1 rs2 s
  | .sub rd rs1 rs2 => Sys2Proof.Machine.execSub rd rs1 rs2 s
  | .inc rd rs1 => Sys2Proof.Machine.execInc rd rs1 s
  | .dec rd rs1 => Sys2Proof.Machine.execDec rd rs1 s
  | .mul rd rs1 rs2 => Sys2Proof.Machine.execMul rd rs1 rs2 s
  | .divmod rd rd2 rs1 rs2 => Sys2Proof.Machine.execDivmod rd rd2 rs1 rs2 s
  | .div rd rs1 rs2 => Sys2Proof.Machine.execDiv rd rs1 rs2 s
  | .mod rd rs1 rs2 => Sys2Proof.Machine.execMod rd rs1 rs2 s
  | .and rd rs1 rs2 => Sys2Proof.Machine.execAnd rd rs1 rs2 s
  | .or rd rs1 rs2 => Sys2Proof.Machine.execOr rd rs1 rs2 s
  | .xor rd rs1 rs2 => Sys2Proof.Machine.execXor rd rs1 rs2 s
  | .shl rd rs1 => Sys2Proof.Machine.execShl rd rs1 s
  | .shr rd rs1 => Sys2Proof.Machine.execShr rd rs1 s

end Sys2Proof.Machine
end

