-- ==== Sys2Proof/Machine/Agents.lean ====
section
/-!
DEFINITION. The steps of the three agents: the execution unit (30_encoding.md R94), the host (00_scope.md R10) and
reset (70_reset_and_hazards.md R300), and the placing of a command for the unit (log 13).
-/

namespace Sys2Proof.Machine

/-- The unit's step when it is enabled (30_encoding.md R94): end initialisation, or decode the pending word and take its
fault or run it. With nothing pending the spec gives no step (log 11). -/
def unitStep (s : State) : Result :=
  match s.pend with
  | .none => .fault .busyWithNothingPending
  | .init => .next s.endInit
  | .command w =>
    match decode s.cfg.N w with
    | .error c => .next (s.raise c)
    | .ok i => exec i s

/-- The unit is enabled exactly when BUSY = 1 and FAULT = 0 (30_encoding.md R94). -/
def State.unitEnabled (s : State) : Bool := s.busy && !s.fault

/-- The unit's turn: its step when it is enabled, and nothing otherwise: the idle unit waits (60_exceptions.md R284) and
the fault state is quiescent (R273; log 3). -/
def unitTurn (s : State) : Result := if s.unitEnabled then unitStep s else .next s

/-- Reset: every piece of the machine's state at its reset value, whatever was pending (70_reset_and_hazards.md R300).
The model's own fields are not the machine's state and stay (log 17). -/
def resetAgent (s : State) : State :=
  { State.resetOf s.cfg with turns := s.turns, readData := s.readData, freeCount := s.freeCount }

/-- One move of one agent (00_scope.md R10). -/
def takeTurn : Turn → State → Result
  | .host a, s => .next (hostAccess a s)
  | .unit, s => unitTurn s
  | .reset, s => .next (resetAgent s)

/-- A command word placed as an accepted CMD write leaves it (10_state.md R33), with the unit enabled and next to
move (log 13). -/
def State.placeCommand (s : State) (w : CmdWord) : State :=
  { s.accept w with fault := false, cause := .none, turns := .unit :: s.turns }

end Sys2Proof.Machine
end

