-- ==== Sys2Proof/Machine/Step.lean ====
section
/-!
DEFINITION. One step of the machine: the first listed move of an agent, or the unit's turn when none is listed
(00_scope.md R10, 70_reset_and_hazards.md R309; log 2).
-/

namespace Sys2Proof.Machine

/-- One step. -/
def step (s : State) : Host.Outcome State Fault Refusal :=
  match s.turns with
  | [] => unitTurn s
  | t :: ts => takeTurn t (s.setTurns ts)

/-- The state in which the very next step runs the command word `w` (log 13). -/
def State.withFetchWord (s : State) (nbits w : Nat) : State := s.placeCommand (BitVec.ofNat 32 (w % 2 ^ nbits))

end Sys2Proof.Machine
end

