-- ==== Sys2Proof/Machine/Assembler.lean ====
section
/-!
DEFINITION. Assembler syntax and pseudo-instructions (30_encoding.md R97, R98), and the lines of a host script (R99).
They are the host's notation: the block itself sees only CSR accesses (10_state.md R25).
-/

namespace Sys2Proof.Machine

/-- `v0` to `v15` (30_encoding.md R97). -/
def regName (r : Reg) : String := "v" ++ toString r.val

/-- A mnemonic and its operands, destinations first (30_encoding.md R97). -/
def asmLine (mnemonic : String) (operands : List String) : String := mnemonic ++ " " ++ ", ".intercalate operands

/-- The assembler line of a command, with decimal limb indices (30_encoding.md R97). -/
def asm : Instr → String
  | .nop => "nop"
  | .clr rd => asmLine "clr" [regName rd]
  | .mov rd rs1 => asmLine "mov" [regName rd, regName rs1]
  | .ldn rd => asmLine "ldn" [regName rd]
  | .ton rs1 => asmLine "ton" [regName rs1]
  | .setl r idx => asmLine "setl" [regName r, toString idx.val]
  | .getl r idx => asmLine "getl" [regName r, toString idx.val]
  | .cmp rs1 rs2 => asmLine "cmp" [regName rs1, regName rs2]
  | .eq rs1 rs2 => asmLine "eq" [regName rs1, regName rs2]
  | .isz rs1 => asmLine "isz" [regName rs1]
  | .add rd rs1 rs2 => asmLine "add" [regName rd, regName rs1, regName rs2]
  | .sub rd rs1 rs2 => asmLine "sub" [regName rd, regName rs1, regName rs2]
  | .inc rd rs1 => asmLine "inc" [regName rd, regName rs1]
  | .dec rd rs1 => asmLine "dec" [regName rd, regName rs1]
  | .mul rd rs1 rs2 => asmLine "mul" [regName rd, regName rs1, regName rs2]
  | .divmod rd rd2 rs1 rs2 => asmLine "divmod" [regName rd, regName rd2, regName rs1, regName rs2]
  | .div rd rs1 rs2 => asmLine "div" [regName rd, regName rs1, regName rs2]
  | .mod rd rs1 rs2 => asmLine "mod" [regName rd, regName rs1, regName rs2]
  | .and rd rs1 rs2 => asmLine "and" [regName rd, regName rs1, regName rs2]
  | .or rd rs1 rs2 => asmLine "or" [regName rd, regName rs1, regName rs2]
  | .xor rd rs1 rs2 => asmLine "xor" [regName rd, regName rs1, regName rs2]
  | .shl rd rs1 => asmLine "shl" [regName rd, regName rs1]
  | .shr rd rs1 => asmLine "shr" [regName rd, regName rs1]

/-- The STATUS fields a script may branch on (30_encoding.md R99). -/
inductive StatusField where
  | ovf
  | cond
  | rel
  deriving DecidableEq, Repr

/-- A field of a STATUS word the host has read (10_state.md section 3). -/
def StatusField.get (st : BitVec 32) : StatusField → Nat
  | .ovf => st.toNat / 2 ^ 1 % 2
  | .cond => st.toNat / 2 ^ 2 % 2
  | .rel => st.toNat / 2 ^ 3 % 4

/-- One step of a host script (30_encoding.md R99). -/
inductive HostStep where
  | wr (c : Csr) (x : Native)
  | rd (c : Csr) (variable_ : String)
  | command (i : Instr)
  | wait
  | ifStatus (f : StatusField) (x : Nat) (label : String)
  | ifVar (variable_ : String) (x : Native) (label : String)
  | goto (label : String)
  | halt
  deriving DecidableEq, Repr

/-- The pseudo-instructions (30_encoding.md R98). -/
inductive Pseudo where
  | ldi (vd : Reg) (imm : Native)
  | setli (vr : Reg) (idx : LimbIdx) (imm : Native)
  | shli (vd vs : Reg) (n : Native)
  | shri (vd vs : Reg) (n : Native)
  | inc (vd : Reg)
  | dec (vd : Reg)
  | zero (vd : Reg)
  | clrovf
  | lt (vs1 vs2 : Reg)
  | le (vs1 vs2 : Reg)
  | gt (vs1 vs2 : Reg)
  | ge (vs1 vs2 : Reg)
  | ne (vs1 vs2 : Reg)
  deriving DecidableEq, Repr

/-- The expansion of a pseudo-instruction (30_encoding.md R98). -/
def Pseudo.expand : Pseudo → List HostStep
  | .ldi vd imm => [.wr .arg imm, .command (.ldn vd)]
  | .setli vr idx imm => [.wr .arg imm, .command (.setl vr idx)]
  | .shli vd vs n => [.wr .arg n, .command (.shl vd vs)]
  | .shri vd vs n => [.wr .arg n, .command (.shr vd vs)]
  | .inc vd => [.command (.inc vd vd)]
  | .dec vd => [.command (.dec vd vd)]
  | .zero vd => [.command (.clr vd)]
  | .clrovf => [.command .nop]
  | .lt vs1 vs2 => [.command (.cmp vs1 vs2)]
  | .le vs1 vs2 => [.command (.cmp vs1 vs2)]
  | .gt vs1 vs2 => [.command (.cmp vs1 vs2)]
  | .ge vs1 vs2 => [.command (.cmp vs1 vs2)]
  | .ne vs1 vs2 => [.command (.eq vs1 vs2)]

/-- Whether a relation pseudo-instruction is true of the STATUS word read after it; none for one that is no relation
(30_encoding.md R98). -/
def Pseudo.truth (st : BitVec 32) : Pseudo → Option Bool
  | .lt _ _ => some (StatusField.rel.get st == 1)
  | .le _ _ => some (StatusField.rel.get st == 1 || StatusField.rel.get st == 2)
  | .gt _ _ => some (StatusField.rel.get st == 3)
  | .ge _ _ => some (StatusField.rel.get st == 2 || StatusField.rel.get st == 3)
  | .ne _ _ => some (StatusField.cond.get st == 0)
  | .ldi _ _ => none
  | .setli _ _ _ => none
  | .shli _ _ _ => none
  | .shri _ _ _ => none
  | .inc _ => none
  | .dec _ => none
  | .zero _ => none
  | .clrovf => none

end Sys2Proof.Machine
end

