-- ==== Sys2Proof/Safety.lean ====
section
/-!
DEFINITION. The terms claims are stated in: the limb invariant, the invariant of the reachable states, what a completed
command leaves alone, and what a fault leaves alone.
-/

namespace Sys2Proof.Machine

/-- The limb invariant: every register has exactly N limbs, each below BASE (10_state.md R21). -/
abbrev State.LimbsOk (s : State) : Prop :=
  ∀ r : Reg, (s.reg r).length = s.cfg.N ∧ ∀ x ∈ s.reg r, x < s.cfg.base

/-- `t` agrees with `s` on everything a command never writes: the configuration, CMD, ARG, FAULT, CAUSE, the coming
turns, the read data and the free-value counter. -/
abbrev State.SameOutside (s t : State) : Prop :=
  t.cfg = s.cfg ∧ t.cmd = s.cmd ∧ t.arg = s.arg ∧ t.fault = s.fault ∧ t.cause = s.cause ∧ t.turns = s.turns
    ∧ t.readData = s.readData ∧ t.freeCount = s.freeCount

/-- Every register outside `ds` is unchanged. -/
abbrev State.RegsKept (s t : State) (ds : List Reg) : Prop := ∀ r : Reg, r ∉ ds → t.reg r = s.reg r

/-- `t` is what a completed command leaves of `s`, its destinations' new contents and RESULT apart: the response fields
are `r`, BUSY is 0, and everything else outside `ds`, RESULT and the consumed latch is unchanged (30_encoding.md R94,
R96). The limb invariant holds of `t` (10_state.md R21). -/
structure State.Completed (s t : State) (ds : List Reg) (r : Response) : Prop where
  ovf : t.ovf = r.ovf
  cond : t.cond = r.cond
  rel : t.rel = r.rel
  notBusy : t.busy = false
  limbs : t.LimbsOk
  regs : s.RegsKept t ds
  rest : s.SameOutside t

/-- `t` is `s` after the fault entry with cause `c`: FAULT, CAUSE, BUSY and PEND are written and nothing else
(60_exceptions.md R271). -/
structure State.Faulted (s t : State) (c : Cause) : Prop where
  fault : t.fault = true
  cause : t.cause = c
  notBusy : t.busy = false
  consumed : t.pend = .none
  regs : ∀ r : Reg, t.reg r = s.reg r
  result : t.result = s.result
  ovf : t.ovf = s.ovf
  cond : t.cond = s.cond
  rel : t.rel = s.rel
  cfg : t.cfg = s.cfg
  cmd : t.cmd = s.cmd
  arg : t.arg = s.arg
  turns : t.turns = s.turns
  readData : t.readData = s.readData
  freeCount : t.freeCount = s.freeCount

/-- `t` agrees with `s` on the configuration and on all state the spec gives the machine (10_state.md R43): only the
model's own fields `turns`, `readData` and `freeCount` may differ. -/
structure State.SameMachine (s t : State) : Prop where
  cfg : t.cfg = s.cfg
  v : t.v = s.v
  cmd : t.cmd = s.cmd
  arg : t.arg = s.arg
  result : t.result = s.result
  busy : t.busy = s.busy
  ovf : t.ovf = s.ovf
  cond : t.cond = s.cond
  rel : t.rel = s.rel
  fault : t.fault = s.fault
  cause : t.cause = s.cause
  pend : t.pend = s.pend

/-- The host accesses that are protocol violations in the normal state (60_exceptions.md R274, the table of 10_state.md
R38): 0x00 CMD, 0x08 ARG, 0x10 RESULT, 0x18 STATUS, 0x20 CONFIG. -/
def State.Violation (s : State) : HostAccess → Prop
  | .read offset width =>
    (offset ≠ 0x00 ∧ offset ≠ 0x08 ∧ offset ≠ 0x10 ∧ offset ≠ 0x18 ∧ offset ≠ 0x20)
      ∨ ((offset = 0x00 ∨ offset = 0x18 ∨ offset = 0x20) ∧ width ≠ 32)
      ∨ ((offset = 0x08 ∨ offset = 0x10) ∧ (width ≠ 64 ∨ s.busy = true))
  | .write offset width _ =>
    (offset ≠ 0x00 ∧ offset ≠ 0x08) ∨ (offset = 0x00 ∧ (width ≠ 32 ∨ s.busy = true))
      ∨ (offset = 0x08 ∧ (width ≠ 64 ∨ s.busy = true))

/-- `k` steps of the machine, ending at the first stop. -/
def stepN : Nat → State → Result
  | 0, s => .next s
  | k + 1, s =>
    match step s with
    | .next t => stepN k t
    | .fault f => .fault f
    | .refused r => .refused r

/-- The invariant of the states a run can be in. -/
structure State.Inv (s : State) : Prop where
  /-- the limb invariant (10_state.md R21) -/
  limbs : s.LimbsOk
  /-- CAUSE is NONE exactly while FAULT = 0 (10_state.md R31) -/
  causeOfFault : s.fault = true ↔ s.cause ≠ .none
  /-- the fault state runs nothing: BUSY stays 0 (60_exceptions.md R273) -/
  faultIdle : s.fault = true → s.busy = false
  /-- something is pending exactly while BUSY = 1 (10_state.md R29, R39; that nothing is pending while BUSY = 0 is DEDUCED,
  log 6) -/
  busyIffPending : s.busy = true ↔ s.pend ≠ .none
  /-- a pending command is the last word written to CMD (10_state.md R33) -/
  pendingIsCmd : ∀ w, s.pend = .command w → s.cmd = w
  /-- until initialisation ends the machine is as reset left it (70_reset_and_hazards.md R300, R301) -/
  initIsReset : s.pend = .init →
    s = { State.resetOf s.cfg with turns := s.turns, readData := s.readData, freeCount := s.freeCount }
  /-- REL, COND and OVF are results of different commands: at most one is set (10_state.md R26 to R28) -/
  oneResponse : (s.rel ≠ .none → s.cond = false ∧ s.ovf = false) ∧ (s.cond = true → s.ovf = false)

end Sys2Proof.Machine
end

