-- ==== Sys2Proof/Certificates/Slice0/Obligations.lean ====
section
/-!
DEFINITION. The statements for the provers, from the numbered rules of spec/. A = val(V[rs1]), B = val(V[rs2]),
n = ARGV, M = BASE^N = 2^TB. A word is written out from the field layouts of 30_encoding.md R82 and R83.
-/

open Sys2Proof Sys2Proof.Machine

/-! ## Data movement and native codec (46_move_and_native.md) -/

/-- R240: NOP writes the three response fields and nothing else; 0x00000000 is its only word; reset leaves that word
in CMD and does not run it. -/
def Obligations.NopOnlyClearsResponse : Prop :=
  (∀ s : State, s.LimbsOk → ∃ t, exec .nop s = .next t ∧ s.Completed t [] ⟨false, false, .none⟩ ∧ t.result = s.result)
  ∧ (∀ n, decode n 0x00000000#32 = .ok .nop)
  ∧ (∀ n (w : CmdWord), w.toNat % 64 = 0 → w ≠ 0 → decode n w = .error .reservedNonzero)
  ∧ (∀ s : State, (resetAgent s).cmd = 0x00000000#32 ∧ (resetAgent s).pend = .init)

/-- R241: CLR zeroes every limb of its destination. -/
def Obligations.ClrZeroesDestination : Prop :=
  (∀ (s : State) (rd : Reg), s.LimbsOk →
    ∃ t, exec (.clr rd) s = .next t ∧ s.Completed t [rd] ⟨false, false, .none⟩ ∧ t.result = s.result
      ∧ t.value rd = 0 ∧ t.reg rd = List.replicate s.cfg.N 0)
  ∧ (∀ n (rd : Reg), decode n (BitVec.ofNat 32 (0x01 + rd.val * 2 ^ 6)) = .ok (.clr rd))

/-- R242: MOV copies all N limbs. -/
def Obligations.MovCopiesAllLimbs : Prop :=
  (∀ (s : State) (rd rs1 : Reg), s.LimbsOk →
    ∃ t, exec (.mov rd rs1) s = .next t ∧ s.Completed t [rd] ⟨false, false, .none⟩ ∧ t.result = s.result
      ∧ t.reg rd = s.reg rs1)
  ∧ (∀ n (rd rs1 : Reg), decode n (BitVec.ofNat 32 (0x02 + rd.val * 2 ^ 6 + rs1.val * 2 ^ 10)) = .ok (.mov rd rs1))

/-- R243: LDN imports ARGV mod 2^TB, limb by limb, with OVF exactly when ARGV does not fit, so never when TB ≥ 64. -/
def Obligations.LdnImportsArg : Prop :=
  (∀ (s : State) (rd : Reg), s.LimbsOk →
    ∃ t, exec (.ldn rd) s = .next t
      ∧ s.Completed t [rd] ⟨decide (s.cfg.modulus ≤ s.arg.toNat), false, .none⟩ ∧ t.result = s.result
      ∧ t.value rd = s.arg.toNat % s.cfg.modulus
      ∧ (∀ i, i < s.cfg.N → t.limb rd i = s.arg.toNat / s.cfg.base ^ i % s.cfg.base)
      ∧ (64 ≤ s.cfg.totalBits → t.ovf = false))
  ∧ (∀ n (rd : Reg), decode n (BitVec.ofNat 32 (0x03 + rd.val * 2 ^ 6)) = .ok (.ldn rd))

/-- R244: TON exports A mod 2^64 to RESULT and writes no value register; OVF exactly when A ≥ 2^64, so never when
TB ≤ 64, and at W = 64 exactly when a limb above limb 0 is not zero. -/
def Obligations.TonExportsToResult : Prop :=
  (∀ (s : State) (rs1 : Reg), s.LimbsOk →
    ∃ t, exec (.ton rs1) s = .next t ∧ s.Completed t [] ⟨decide (2 ^ 64 ≤ s.value rs1), false, .none⟩
      ∧ t.result.toNat = s.value rs1 % 2 ^ 64
      ∧ (s.cfg.totalBits ≤ 64 → t.ovf = false)
      ∧ (s.cfg.W = 64 → (t.ovf = true ↔ ∃ i, 1 ≤ i ∧ s.limb rs1 i ≠ 0)))
  ∧ (∀ n (rs1 : Reg), decode n (BitVec.ofNat 32 (0x04 + rs1.val * 2 ^ 10)) = .ok (.ton rs1))

/-- R245: SETL writes one limb from ARG and keeps the others; OVF exactly when ARG has bits above the limb, so never at
W = 64. At idx ≥ N the word is refused with BAD_LIMB_INDEX. -/
def Obligations.SetlWritesOneLimb : Prop :=
  (∀ (s : State) (r : Reg) (idx : LimbIdx), s.LimbsOk → idx.val < s.cfg.N →
    ∃ t, exec (.setl r idx) s = .next t
      ∧ s.Completed t [r] ⟨decide (s.cfg.base ≤ s.arg.toNat), false, .none⟩ ∧ t.result = s.result
      ∧ t.limb r idx.val = s.arg.toNat % s.cfg.base
      ∧ (∀ j, j ≠ idx.val → t.limb r j = s.limb r j)
      ∧ (s.cfg.W = 64 → t.ovf = false))
  ∧ (∀ n (r : Reg) (idx : LimbIdx), decode n (BitVec.ofNat 32 (0x05 + r.val * 2 ^ 6 + idx.val * 2 ^ 16))
    = if idx.val < n then .ok (.setl r idx) else .error .badLimbIndex)

/-- R246: GETL reads one limb into RESULT, zero-extended, and writes no value register; idx ≥ N is refused. -/
def Obligations.GetlReadsOneLimb : Prop :=
  (∀ (s : State) (r : Reg) (idx : LimbIdx), s.LimbsOk → idx.val < s.cfg.N →
    ∃ t, exec (.getl r idx) s = .next t ∧ s.Completed t [] ⟨false, false, .none⟩
      ∧ t.result.toNat = s.limb r idx.val)
  ∧ (∀ n (r : Reg) (idx : LimbIdx), decode n (BitVec.ofNat 32 (0x06 + r.val * 2 ^ 6 + idx.val * 2 ^ 16))
    = if idx.val < n then .ok (.getl r idx) else .error .badLimbIndex)

/-! ## Comparator (41_comparator.md) -/

/-- R110: CMP gives the order of the values, decided by the most significant differing limb; no register is written. -/
def Obligations.CmpOrdersByTopDifferingLimb : Prop :=
  (∀ (s : State) (rs1 rs2 : Reg), s.LimbsOk →
    ∃ t, exec (.cmp rs1 rs2) s = .next t
      ∧ s.Completed t [] ⟨false, false, if s.value rs1 < s.value rs2 then .less
          else if s.value rs1 = s.value rs2 then .equal else .greater⟩
      ∧ t.result = s.result
      ∧ (∀ i, s.limb rs1 i ≠ s.limb rs2 i → (∀ j, i < j → s.limb rs1 j = s.limb rs2 j) →
          t.rel = if s.limb rs1 i < s.limb rs2 i then .less else .greater))
  ∧ (∀ n (rs1 rs2 : Reg),
    decode n (BitVec.ofNat 32 (0x08 + rs1.val * 2 ^ 10 + rs2.val * 2 ^ 14)) = .ok (.cmp rs1 rs2))

/-- R111: EQ sets COND exactly when every limb agrees, exactly when A = B, exactly when CMP gives EQUAL. -/
def Obligations.EqTestsEveryLimb : Prop :=
  (∀ (s : State) (rs1 rs2 : Reg), s.LimbsOk →
    ∃ t u, exec (.eq rs1 rs2) s = .next t ∧ s.Completed t [] ⟨false, decide (s.value rs1 = s.value rs2), .none⟩
      ∧ t.result = s.result ∧ exec (.cmp rs1 rs2) s = .next u
      ∧ (t.cond = true ↔ ∀ i, i < s.cfg.N → s.limb rs1 i = s.limb rs2 i)
      ∧ (t.cond = true ↔ u.rel = .equal))
  ∧ (∀ n (rs1 rs2 : Reg),
    decode n (BitVec.ofNat 32 (0x09 + rs1.val * 2 ^ 10 + rs2.val * 2 ^ 14)) = .ok (.eq rs1 rs2))

/-- R112: ISZ sets COND exactly when every limb is zero, exactly when A = 0. -/
def Obligations.IszTestsEveryLimb : Prop :=
  (∀ (s : State) (rs1 : Reg), s.LimbsOk →
    ∃ t, exec (.isz rs1) s = .next t ∧ s.Completed t [] ⟨false, decide (s.value rs1 = 0), .none⟩
      ∧ t.result = s.result
      ∧ (t.cond = true ↔ ∀ i, i < s.cfg.N → s.limb rs1 i = 0))
  ∧ (∀ n (rs1 : Reg), decode n (BitVec.ofNat 32 (0x0A + rs1.val * 2 ^ 10)) = .ok (.isz rs1))

/-- R114: CMP is a total order that agrees with val and with identity of limbs, ISZ is EQ against a zero register, and
no comparator command writes a value register, ARG or RESULT. -/
def Obligations.ComparatorLaws : Prop :=
  ∀ (s : State) (a b z : Reg), s.LimbsOk → s.value z = 0 →
    ∃ ab ba e i : State, exec (.cmp a b) s = .next ab ∧ exec (.cmp b a) s = .next ba
      ∧ exec (.eq a z) s = .next e ∧ exec (.isz a) s = .next i
      ∧ (ab.rel = .less ↔ s.value a < s.value b) ∧ (ab.rel = .equal ↔ s.value a = s.value b)
      ∧ (ab.rel = .greater ↔ s.value b < s.value a) ∧ (ab.rel = .less ↔ ba.rel = .greater)
      ∧ (ab.rel = .equal ↔ s.reg a = s.reg b) ∧ i.cond = e.cond
      ∧ (∀ t ∈ [ab, ba, e, i], t.v = s.v ∧ t.arg = s.arg ∧ t.result = s.result)

/-! ## Additive engine (42_additive.md) -/

/-- R130: ADD writes (A + B) mod 2^TB, and OVF is the carry that escapes the top limb. -/
def Obligations.AddWrapsAndReportsCarry : Prop :=
  (∀ (s : State) (rd rs1 rs2 : Reg), s.LimbsOk →
    ∃ t, exec (.add rd rs1 rs2) s = .next t
      ∧ s.Completed t [rd] ⟨decide (s.cfg.modulus ≤ s.value rs1 + s.value rs2), false, .none⟩ ∧ t.result = s.result
      ∧ t.value rd = (s.value rs1 + s.value rs2) % s.cfg.modulus)
  ∧ (∀ n (rd rs1 rs2 : Reg),
    decode n (BitVec.ofNat 32 (0x10 + rd.val * 2 ^ 6 + rs1.val * 2 ^ 10 + rs2.val * 2 ^ 14)) = .ok (.add rd rs1 rs2))

/-- R131: SUB writes (A - B) mod 2^TB, and OVF is the borrow that escapes the top limb, B > A. -/
def Obligations.SubWrapsAndReportsBorrow : Prop :=
  (∀ (s : State) (rd rs1 rs2 : Reg), s.LimbsOk →
    ∃ t, exec (.sub rd rs1 rs2) s = .next t
      ∧ s.Completed t [rd] ⟨decide (s.value rs1 < s.value rs2), false, .none⟩ ∧ t.result = s.result
      ∧ (t.value rd : Int) = ((s.value rs1 : Int) - s.value rs2) % (s.cfg.modulus : Int))
  ∧ (∀ n (rd rs1 rs2 : Reg),
    decode n (BitVec.ofNat 32 (0x11 + rd.val * 2 ^ 6 + rs1.val * 2 ^ 10 + rs2.val * 2 ^ 14)) = .ok (.sub rd rs1 rs2))

/-- R132: INC writes (A + 1) mod 2^TB with OVF exactly when A = MAXV; the limbs above the first one that does not wrap
are copied unchanged. -/
def Obligations.IncAddsOne : Prop :=
  (∀ (s : State) (rd rs1 : Reg), s.LimbsOk →
    ∃ t, exec (.inc rd rs1) s = .next t
      ∧ s.Completed t [rd] ⟨decide (s.value rs1 = s.cfg.maxv), false, .none⟩ ∧ t.result = s.result
      ∧ t.value rd = (s.value rs1 + 1) % s.cfg.modulus
      ∧ (∀ i, i < s.cfg.N → s.limb rs1 i ≠ s.cfg.base - 1 → ∀ j, i < j → t.limb rd j = s.limb rs1 j))
  ∧ (∀ n (rd rs1 : Reg), decode n (BitVec.ofNat 32 (0x12 + rd.val * 2 ^ 6 + rs1.val * 2 ^ 10)) = .ok (.inc rd rs1))

/-- R133: DEC writes (A - 1) mod 2^TB with OVF exactly when A = 0; the limbs above the first one that does not wrap are
copied unchanged. -/
def Obligations.DecSubtractsOne : Prop :=
  (∀ (s : State) (rd rs1 : Reg), s.LimbsOk →
    ∃ t, exec (.dec rd rs1) s = .next t
      ∧ s.Completed t [rd] ⟨decide (s.value rs1 = 0), false, .none⟩ ∧ t.result = s.result
      ∧ t.value rd = (if s.value rs1 = 0 then s.cfg.maxv else s.value rs1 - 1)
      ∧ (∀ i, i < s.cfg.N → s.limb rs1 i ≠ 0 → ∀ j, i < j → t.limb rd j = s.limb rs1 j))
  ∧ (∀ n (rd rs1 : Reg), decode n (BitVec.ofNat 32 (0x13 + rd.val * 2 ^ 6 + rs1.val * 2 ^ 10)) = .ok (.dec rd rs1))

/-- R134: SUB undoes ADD (into a register that is not b) and DEC undoes INC, with the same OVF each time; INC is ADD of a
register holding 1 and DEC is SUB of it, in value and OVF; no additive command writes ARG or RESULT. -/
def Obligations.AdditiveLaws : Prop :=
  ∀ (s : State) (rd a b one : Reg), s.LimbsOk →
    (rd ≠ b → ∃ t u : State, exec (.add rd a b) s = .next t ∧ exec (.sub rd rd b) t = .next u
      ∧ u.value rd = s.value a ∧ u.ovf = t.ovf ∧ u.arg = s.arg ∧ u.result = s.result)
    ∧ (∃ t u : State, exec (.inc rd a) s = .next t ∧ exec (.dec rd rd) t = .next u
      ∧ u.value rd = s.value a ∧ u.ovf = t.ovf ∧ u.arg = s.arg ∧ u.result = s.result)
    ∧ (s.value one = 1 → ∃ t u : State, exec (.inc rd a) s = .next t ∧ exec (.add rd a one) s = .next u
      ∧ t.value rd = u.value rd ∧ t.ovf = u.ovf)
    ∧ (s.value one = 1 → ∃ t u : State, exec (.dec rd a) s = .next t ∧ exec (.sub rd a one) s = .next u
      ∧ t.value rd = u.value rd ∧ t.ovf = u.ovf)

/-! ## Multiplication (43_multiply.md) -/

/-- R160, R161: MUL writes the kept partial products mod 2^TB, which is A · B mod 2^TB. OVF is 1 exactly when
A · B ≥ BASE^N, and exactly when a dropped pair (i + j ≥ N) is non-zero or the kept pairs alone reach BASE^N. -/
def Obligations.MulWrapsAndReportsOverflow : Prop :=
  (∀ (s : State) (rd rs1 rs2 : Reg), s.LimbsOk →
    let kept := ((List.range s.cfg.N).map fun i => ((List.range (s.cfg.N - i)).map fun j =>
      s.limb rs1 i * s.limb rs2 j * s.cfg.base ^ (i + j)).sum).sum
    ∃ t, exec (.mul rd rs1 rs2) s = .next t
      ∧ s.Completed t [rd] ⟨decide (s.cfg.modulus ≤ s.value rs1 * s.value rs2), false, .none⟩ ∧ t.result = s.result
      ∧ t.value rd = s.value rs1 * s.value rs2 % s.cfg.modulus ∧ t.value rd = kept % s.cfg.modulus
      ∧ (t.ovf = true ↔ s.cfg.base ^ s.cfg.N ≤ s.value rs1 * s.value rs2)
      ∧ (t.ovf = true ↔
          (∃ i j, i < s.cfg.N ∧ j < s.cfg.N ∧ s.cfg.N ≤ i + j ∧ s.limb rs1 i * s.limb rs2 j ≠ 0)
          ∨ s.cfg.base ^ s.cfg.N ≤ kept))
  ∧ (∀ n (rd rs1 rs2 : Reg),
    decode n (BitVec.ofNat 32 (0x18 + rd.val * 2 ^ 6 + rs1.val * 2 ^ 10 + rs2.val * 2 ^ 14)) = .ok (.mul rd rs1 rs2))

/-- R162: MUL is commutative in value and OVF, exact when OVF = 0, and agrees in value with SHL by k when B = 2^k, whose
OVF is always 0; with W = 32 and N = 1, 0xFFFFFFFF · 2 gives 0xFFFFFFFE and OVF = 1. -/
def Obligations.MultiplicativeLaws : Prop :=
  ∀ (s : State) (rd a b : Reg), s.LimbsOk →
    ∃ t u w : State, exec (.mul rd a b) s = .next t ∧ exec (.mul rd b a) s = .next u ∧ exec (.shl rd a) s = .next w
      ∧ t.value rd = u.value rd ∧ t.ovf = u.ovf
      ∧ (t.ovf = false → t.value rd = s.value a * s.value b)
      ∧ (∀ k, k < s.cfg.totalBits → s.arg.toNat = k → s.value b = 2 ^ k → t.value rd = w.value rd)
      ∧ w.ovf = false
      ∧ (s.cfg.W = 32 → s.cfg.N = 1 → s.value a = 0xFFFFFFFF → s.value b = 2 → t.value rd = 0xFFFFFFFE ∧ t.ovf = true)

/-! ## Division (44_divide.md) -/

/-- R180: DIVMOD writes the floor quotient to rd and the remainder to rd2, from the values before the command; a zero
divisor faults and writes nothing; rd = rd2 is refused at decode. -/
def Obligations.DivmodGivesQuotientAndRemainder : Prop :=
  (∀ (s : State) (rd rd2 rs1 rs2 : Reg), s.LimbsOk → rd ≠ rd2 → s.value rs2 ≠ 0 →
    ∃ t, exec (.divmod rd rd2 rs1 rs2) s = .next t ∧ s.Completed t [rd, rd2] ⟨false, false, .none⟩
      ∧ t.result = s.result ∧ t.value rd = s.value rs1 / s.value rs2 ∧ t.value rd2 = s.value rs1 % s.value rs2)
  ∧ (∀ (s : State) (rd rd2 rs1 rs2 : Reg), rd ≠ rd2 → s.value rs2 = 0 →
    ∃ t, exec (.divmod rd rd2 rs1 rs2) s = .next t ∧ s.Faulted t .divideByZero)
  ∧ (∀ n (rd rd2 rs1 rs2 : Reg),
    decode n (BitVec.ofNat 32 (0x1C + rd.val * 2 ^ 6 + rs1.val * 2 ^ 10 + rs2.val * 2 ^ 14 + rd2.val * 2 ^ 18))
      = if rd = rd2 then .error .operandConflict else .ok (.divmod rd rd2 rs1 rs2))

/-- R181: DIV writes the quotient DIVMOD gives; a zero divisor faults and writes nothing. -/
def Obligations.DivGivesQuotient : Prop :=
  (∀ (s : State) (rd rs1 rs2 : Reg), s.LimbsOk → s.value rs2 ≠ 0 →
    ∃ t, exec (.div rd rs1 rs2) s = .next t ∧ s.Completed t [rd] ⟨false, false, .none⟩ ∧ t.result = s.result
      ∧ t.value rd = s.value rs1 / s.value rs2)
  ∧ (∀ (s : State) (rd rs1 rs2 : Reg), s.value rs2 = 0 →
    ∃ t, exec (.div rd rs1 rs2) s = .next t ∧ s.Faulted t .divideByZero)
  ∧ (∀ n (rd rs1 rs2 : Reg),
    decode n (BitVec.ofNat 32 (0x1D + rd.val * 2 ^ 6 + rs1.val * 2 ^ 10 + rs2.val * 2 ^ 14)) = .ok (.div rd rs1 rs2))

/-- R182: MOD writes the remainder DIVMOD gives; a zero divisor faults and writes nothing. -/
def Obligations.ModGivesRemainder : Prop :=
  (∀ (s : State) (rd rs1 rs2 : Reg), s.LimbsOk → s.value rs2 ≠ 0 →
    ∃ t, exec (.mod rd rs1 rs2) s = .next t ∧ s.Completed t [rd] ⟨false, false, .none⟩ ∧ t.result = s.result
      ∧ t.value rd = s.value rs1 % s.value rs2)
  ∧ (∀ (s : State) (rd rs1 rs2 : Reg), s.value rs2 = 0 →
    ∃ t, exec (.mod rd rs1 rs2) s = .next t ∧ s.Faulted t .divideByZero)
  ∧ (∀ n (rd rs1 rs2 : Reg),
    decode n (BitVec.ofNat 32 (0x1E + rd.val * 2 ^ 6 + rs1.val * 2 ^ 10 + rs2.val * 2 ^ 14)) = .ok (.mod rd rs1 rs2))

/-- R184, R185: q · B + r = A exactly, r < B and q ≤ A ≤ MAXV; DIV and MOD give DIVMOD's two results; OVF is 0; and
A < B gives q = 0 and r = A. -/
def Obligations.DivisionLaws : Prop :=
  ∀ (s : State) (q r a b : Reg), s.LimbsOk → q ≠ r → s.value b ≠ 0 →
    ∃ t u w : State, exec (.divmod q r a b) s = .next t ∧ exec (.div q a b) s = .next u
      ∧ exec (.mod r a b) s = .next w
      ∧ t.value q * s.value b + t.value r = s.value a ∧ t.value r < s.value b
      ∧ t.value q ≤ s.value a ∧ s.value a ≤ s.cfg.maxv ∧ s.value b ≤ s.cfg.maxv
      ∧ u.value q = t.value q ∧ w.value r = t.value r
      ∧ t.ovf = false ∧ u.ovf = false ∧ w.ovf = false
      ∧ (s.value a < s.value b → t.value q = 0 ∧ t.value r = s.value a)

/-- From R183: the reference long division, window by window with trial subtraction, gives A div B and A mod B, and every
quotient digit its trial subtraction counts is below BASE. -/
def Obligations.LongDivisionIsDivMod : Prop :=
  ∀ (s : State) (rs1 rs2 : Reg), s.LimbsOk → s.value rs2 ≠ 0 →
    longDivide s.cfg.base (s.reg rs1) (s.reg rs2) = (s.value rs1 / s.value rs2, s.value rs1 % s.value rs2)
    ∧ (∀ win limb, win < s.value rs2 → limb < s.cfg.base →
        (trialSubtract (s.value rs2) (win * s.cfg.base + limb) (win * s.cfg.base + limb) 0).2 < s.cfg.base)

/-! ## Bitwise engine (45_bitwise.md) -/

/-- R210, R211, R212: AND, OR and XOR act limb by limb and on the whole value; no overflow. -/
def Obligations.LogicActsOnEveryLimb : Prop :=
  (∀ (s : State) (rd rs1 rs2 : Reg), s.LimbsOk →
    (∃ t, exec (.and rd rs1 rs2) s = .next t ∧ s.Completed t [rd] ⟨false, false, .none⟩ ∧ t.result = s.result
      ∧ (∀ i, t.limb rd i = s.limb rs1 i &&& s.limb rs2 i) ∧ t.value rd = s.value rs1 &&& s.value rs2)
    ∧ (∃ t, exec (.or rd rs1 rs2) s = .next t ∧ s.Completed t [rd] ⟨false, false, .none⟩ ∧ t.result = s.result
      ∧ (∀ i, t.limb rd i = s.limb rs1 i ||| s.limb rs2 i) ∧ t.value rd = s.value rs1 ||| s.value rs2)
    ∧ (∃ t, exec (.xor rd rs1 rs2) s = .next t ∧ s.Completed t [rd] ⟨false, false, .none⟩ ∧ t.result = s.result
      ∧ (∀ i, t.limb rd i = s.limb rs1 i ^^^ s.limb rs2 i) ∧ t.value rd = s.value rs1 ^^^ s.value rs2))
  ∧ (∀ n (rd rs1 rs2 : Reg),
    decode n (BitVec.ofNat 32 (0x20 + rd.val * 2 ^ 6 + rs1.val * 2 ^ 10 + rs2.val * 2 ^ 14)) = .ok (.and rd rs1 rs2)
    ∧ decode n (BitVec.ofNat 32 (0x21 + rd.val * 2 ^ 6 + rs1.val * 2 ^ 10 + rs2.val * 2 ^ 14)) = .ok (.or rd rs1 rs2)
    ∧ decode n (BitVec.ofNat 32 (0x22 + rd.val * 2 ^ 6 + rs1.val * 2 ^ 10 + rs2.val * 2 ^ 14))
      = .ok (.xor rd rs1 rs2))

/-- R213: SHL by n = ARG writes (A · 2^n) mod 2^TB for n < TB and 0 from TB on, with OVF = 0 always. -/
def Obligations.ShlShiftsLeftByArg : Prop :=
  (∀ (s : State) (rd rs1 : Reg), s.LimbsOk →
    ∃ t, exec (.shl rd rs1) s = .next t ∧ s.Completed t [rd] ⟨false, false, .none⟩ ∧ t.result = s.result
      ∧ t.value rd = (if s.cfg.totalBits ≤ s.arg.toNat then 0 else s.value rs1 * 2 ^ s.arg.toNat % s.cfg.modulus))
  ∧ (∀ n (rd rs1 : Reg), decode n (BitVec.ofNat 32 (0x24 + rd.val * 2 ^ 6 + rs1.val * 2 ^ 10)) = .ok (.shl rd rs1))

/-- R214: SHR by n = ARG writes A div 2^n, 0 from TB on, with OVF = 0 always. -/
def Obligations.ShrShiftsRightByArg : Prop :=
  (∀ (s : State) (rd rs1 : Reg), s.LimbsOk →
    ∃ t, exec (.shr rd rs1) s = .next t ∧ s.Completed t [rd] ⟨false, false, .none⟩ ∧ t.result = s.result
      ∧ t.value rd = s.value rs1 / 2 ^ s.arg.toNat
      ∧ (s.cfg.totalBits ≤ s.arg.toNat → t.value rd = 0))
  ∧ (∀ n (rd rs1 : Reg), decode n (BitVec.ofNat 32 (0x25 + rd.val * 2 ^ 6 + rs1.val * 2 ^ 10)) = .ok (.shr rd rs1))

/-- R215: AND, OR and XOR are commutative and act on every bit alone; SHR after SHL keeps the low TB - n bits for n < TB,
SHL after SHR clears the low n bits; two shifts the same way are one shift by the sum when the sum fits 64 bits. -/
def Obligations.BitwiseLaws : Prop :=
  (∀ (s : State) (rd a b : Reg), s.LimbsOk →
    ∃ x y o p e f : State, exec (.and rd a b) s = .next x ∧ exec (.and rd b a) s = .next y
      ∧ exec (.or rd a b) s = .next o ∧ exec (.or rd b a) s = .next p
      ∧ exec (.xor rd a b) s = .next e ∧ exec (.xor rd b a) s = .next f
      ∧ x.value rd = y.value rd ∧ o.value rd = p.value rd ∧ e.value rd = f.value rd
      ∧ (∀ j, (x.value rd).testBit j = ((s.value a).testBit j && (s.value b).testBit j)
          ∧ (o.value rd).testBit j = ((s.value a).testBit j || (s.value b).testBit j)
          ∧ (e.value rd).testBit j = ((s.value a).testBit j ^^ (s.value b).testBit j)))
  ∧ (∀ (s : State) (rd a : Reg), s.LimbsOk →
    (s.arg.toNat < s.cfg.totalBits → ∃ t u : State, exec (.shl rd a) s = .next t ∧ exec (.shr rd rd) t = .next u
      ∧ u.value rd = s.value a % 2 ^ (s.cfg.totalBits - s.arg.toNat))
    ∧ (∃ t u : State, exec (.shr rd a) s = .next t ∧ exec (.shl rd rd) t = .next u
      ∧ u.value rd = s.value a / 2 ^ s.arg.toNat * 2 ^ s.arg.toNat))
  ∧ (∀ (s : State) (rd a : Reg) (n1 n2 : Nat), s.LimbsOk → n1 + n2 < 2 ^ 64 →
    (∃ t u w : State, exec (.shl rd a) (s.setArg (BitVec.ofNat 64 n1)) = .next t
      ∧ exec (.shl rd rd) (t.setArg (BitVec.ofNat 64 n2)) = .next u
      ∧ exec (.shl rd a) (s.setArg (BitVec.ofNat 64 (n1 + n2))) = .next w ∧ u.value rd = w.value rd)
    ∧ (∃ t u w : State, exec (.shr rd a) (s.setArg (BitVec.ofNat 64 n1)) = .next t
      ∧ exec (.shr rd rd) (t.setArg (BitVec.ofNat 64 n2)) = .next u
      ∧ exec (.shr rd a) (s.setArg (BitVec.ofNat 64 (n1 + n2))) = .next w ∧ u.value rd = w.value rd))

/-! ## Every command -/

/-- R96: a command that completes writes all three response fields: OVF can be 1 only for ADD, SUB, INC, DEC, MUL, LDN,
TON and SETL, COND only for EQ and ISZ, and REL is LESS, EQUAL or GREATER exactly for CMP; every other field gets 0, 0
or NONE. A command that faults writes none of them. -/
def Obligations.ResponseFieldsByCommand : Prop :=
  ∀ (i : Instr) (s t : State), s.fault = false → exec i s = .next t →
    (t.fault = false →
      (t.ovf = true → i.opcode ∈ [.add, .sub, .inc, .dec, .mul, .ldn, .ton, .setl])
      ∧ (t.cond = true → i.opcode ∈ [.eq, .isz])
      ∧ (t.rel ≠ .none ↔ i.opcode = .cmp))
    ∧ (t.fault = true → t.ovf = s.ovf ∧ t.cond = s.cond ∧ t.rel = s.rel)

/-- R22: a command writes only the registers of its row, RESULT only for TON and GETL, and never CMD or ARG; and what it
writes, its response and whether it faults depend only on the registers of its row and, for LDN, SETL, SHL and SHR,
on ARG. -/
def Obligations.CommandReadsAndWritesItsRow : Prop :=
  (∀ (i : Instr) (s t : State), exec i s = .next t →
    s.RegsKept t i.dests ∧ (i.writesResult = false → t.result = s.result)
      ∧ t.cfg = s.cfg ∧ t.cmd = s.cmd ∧ t.arg = s.arg ∧ t.turns = s.turns ∧ t.readData = s.readData
      ∧ t.freeCount = s.freeCount)
  ∧ (∀ (i : Instr) (s s' : State), s.cfg = s'.cfg → s.fault = false → s'.fault = false →
    (∀ r ∈ i.sources, s.reg r = s'.reg r) → (i.readsArg = true → s.arg = s'.arg) →
    ∃ t t' : State, exec i s = .next t ∧ exec i s' = .next t' ∧ t.fault = t'.fault
      ∧ (t.fault = true → t.cause = t'.cause)
      ∧ (t.fault = false → (∀ r ∈ i.dests, t.reg r = t'.reg r)
          ∧ (i.writesResult = true → t.result = t'.result)
          ∧ t.ovf = t'.ovf ∧ t.cond = t'.cond ∧ t.rel = t'.rel))

/-- R95: sources are read before any destination is written, so which registers the destinations are, sources among
them or not, makes no difference to what is written there nor to the response. -/
def Obligations.DestinationChoiceDoesNotMatter : Prop :=
  ∀ (s : State) (a b d d' e e' : Reg), d ≠ e → d' ≠ e' →
    (∀ i j : Instr,
      (i, j) ∈ [(Instr.add d a b, Instr.add d' a b), (.sub d a b, .sub d' a b), (.mul d a b, .mul d' a b),
        (.div d a b, .div d' a b), (.mod d a b, .mod d' a b), (.and d a b, .and d' a b), (.or d a b, .or d' a b),
        (.xor d a b, .xor d' a b), (.inc d a, .inc d' a), (.dec d a, .dec d' a), (.mov d a, .mov d' a),
        (.shl d a, .shl d' a), (.shr d a, .shr d' a), (.divmod d e a b, .divmod d' e' a b)] →
      ∃ t u : State, exec i s = .next t ∧ exec j s = .next u
        ∧ (t.fault = false → t.reg d = u.reg d')
        ∧ t.ovf = u.ovf ∧ t.cond = u.cond ∧ t.rel = u.rel ∧ t.fault = u.fault ∧ t.cause = u.cause)
    ∧ (∃ t u : State, exec (.divmod d e a b) s = .next t ∧ exec (.divmod d' e' a b) s = .next u
        ∧ (t.fault = false → t.reg e = u.reg e'))

/-- From R269, R270: overflow never faults. At a well-formed command only a zero divisor of DIVMOD, DIV or MOD faults, and
every other one completes with FAULT and CAUSE as they were, whatever its operands. -/
def Obligations.OnlyZeroDivisorFaultsAtExecute : Prop :=
  ∀ (i : Instr) (s : State), i.wellFormed s.cfg.N = true →
    ∃ t, exec i s = .next t ∧ t.busy = false
      ∧ ((∃ rs2, s.value rs2 = 0 ∧ ∃ rd rs1, i = .div rd rs1 rs2 ∨ i = .mod rd rs1 rs2 ∨ ∃ rd2, i = .divmod rd rd2 rs1 rs2)
          ∧ s.Faulted t .divideByZero
        ∨ (∀ rs2, s.value rs2 = 0 → ∀ rd rd2 rs1, i ≠ .div rd rs1 rs2 ∧ i ≠ .mod rd rs1 rs2 ∧ i ≠ .divmod rd rd2 rs1 rs2)
          ∧ t.fault = s.fault ∧ t.cause = s.cause)

/-! ## Encoding (30_encoding.md) -/

/-- From R82, R83, R85: decoding the word of a well-formed command gives that command back, every operand at every value. -/
def Obligations.DecodeOfEncode : Prop :=
  ∀ (n : Nat) (i : Instr), i.wellFormed n = true → decode n (encode i) = .ok i

/-- From R86, R90: a word that decodes is the word of the command it decodes to, which is well-formed: no bit is dropped. -/
def Obligations.EncodeOfDecode : Prop :=
  ∀ (n : Nat) (w : CmdWord) (i : Instr), decode n w = .ok i → encode i = w ∧ i.wellFormed n = true

/-- R86, R90: decoding is total, its causes come in order, and a word no check stops gives the command whose word it is.
The table lists each assigned opcode with its mask. -/
def Obligations.DecodeCausesInOrder : Prop :=
  let table : List (Nat × CmdWord) :=
    [(0x00, 0xFFFFFFFF#32), (0x01, 0xFFFFFC3F#32), (0x02, 0xFFFFC03F#32), (0x03, 0xFFFFFC3F#32), (0x04, 0xFFFFC3FF#32),
      (0x05, 0x0000FC3F#32), (0x06, 0x0000FC3F#32), (0x08, 0xFFFC03FF#32), (0x09, 0xFFFC03FF#32), (0x0A, 0xFFFFC3FF#32)]
    ++ [(0x10, 0xFFFC003F#32), (0x11, 0xFFFC003F#32), (0x12, 0xFFFFC03F#32), (0x13, 0xFFFFC03F#32), (0x18, 0xFFFC003F#32),
      (0x1C, 0xFFC0003F#32), (0x1D, 0xFFFC003F#32), (0x1E, 0xFFFC003F#32)]
    ++ [(0x20, 0xFFFC003F#32), (0x21, 0xFFFC003F#32), (0x22, 0xFFFC003F#32), (0x24, 0xFFFFC03F#32), (0x25, 0xFFFFC03F#32)]
  ∀ (n : Nat) (w : CmdWord),
    ((∀ row ∈ table, w.toNat % 64 ≠ row.1) → decode n w = .error .illegalOpcode)
    ∧ ∀ row ∈ table, w.toNat % 64 = row.1 →
      (w &&& row.2 ≠ BitVec.ofNat 32 row.1 → decode n w = .error .reservedNonzero)
      ∧ (w &&& row.2 = BitVec.ofNat 32 row.1 →
        (row.1 = 0x1C → w.toNat / 2 ^ 6 % 16 = w.toNat / 2 ^ 18 % 16 → decode n w = .error .operandConflict)
        ∧ ((row.1 = 0x05 ∨ row.1 = 0x06) → n ≤ w.toNat / 2 ^ 16 → decode n w = .error .badLimbIndex)
        ∧ (¬ (row.1 = 0x1C ∧ w.toNat / 2 ^ 6 % 16 = w.toNat / 2 ^ 18 % 16) →
            ¬ ((row.1 = 0x05 ∨ row.1 = 0x06) ∧ n ≤ w.toNat / 2 ^ 16) →
            ∃ i, decode n w = .ok i ∧ i.opcode.code = row.1 ∧ encode i = w))

/-- From R82, R83, R85: a few words written out from the field layouts decode to the commands they stand for. -/
def Obligations.SampleWordsDecode : Prop :=
  decode 2 0x000084D0#32 = .ok (.add 3 1 2) ∧ decode 2 0x001084DC#32 = .ok (.divmod 3 4 1 2)
  ∧ decode 2 0x00010105#32 = .ok (.setl 4 1) ∧ decode 2 0x00008408#32 = .ok (.cmp 1 2)
  ∧ decode 2 0x000084D8#32 = .ok (.mul 3 1 2) ∧ decode 2 0x000004E5#32 = .ok (.shr 3 1)

/-! ## The execution unit (30_encoding.md R94) -/

/-- From R94, with the model's list of turns (log 2) and idle unit (log 3): when it is the unit's turn, step ends initialisation,
or takes the cause decoding gives, or runs exec of the decoded command, exactly when BUSY = 1 and FAULT = 0, and BUSY is
0 after it. Moving past the turn is the only thing step adds. -/
def Obligations.StepRunsPendingCommand : Prop :=
  ∀ (s : State) (ts : List Turn), (s.turns = [] ∧ ts = []) ∨ s.turns = .unit :: ts →
    (s.busy = true → s.fault = false →
      (s.pend = .init → ∃ t, step s = .next t ∧ t = { s with busy := false, pend := t.pend, turns := ts })
      ∧ (∀ w i, s.pend = .command w → decode s.cfg.N w = .ok i → step s = exec i { s with turns := ts })
      ∧ (∀ w c, s.pend = .command w → decode s.cfg.N w = .error c →
          ∃ t, step s = .next t ∧ State.Faulted { s with turns := ts } t c)
      ∧ (∀ t, step s = .next t → t.busy = false))
    ∧ (¬ (s.busy = true ∧ s.fault = false) → step s = .next { s with turns := ts })

/-! ## Faults and the host (10_state.md R33 to R38, 60_exceptions.md) -/

/-- R271, R277: fault entry. A unit's turn that sets FAULT writes CAUSE, BUSY and PEND with it and nothing else. A protocol
violation while a command is pending sets the same fields and abandons the command: only the registers it would have
written, and RESULT if it is TON or GETL, may change. -/
def Obligations.FaultEntryIsPreciseOrAbandons : Prop :=
  (∀ s t : State, s.fault = false → unitTurn s = .next t → t.fault = true →
    s.Faulted t t.cause
    ∧ t.cause ∈ [.illegalOpcode, .reservedNonzero, .operandConflict, .badLimbIndex, .divideByZero])
  ∧ (∀ (s : State) (a : HostAccess) (w : CmdWord) (i : Instr), s.fault = false → s.pend = .command w →
    decode s.cfg.N w = .ok i → s.Violation a →
    (hostAccess a s).fault = true ∧ (hostAccess a s).cause = .hostProtocol ∧ (hostAccess a s).busy = false
    ∧ (hostAccess a s).pend = .none ∧ s.RegsKept (hostAccess a s) i.dests
    ∧ (i.writesResult = false → (hostAccess a s).result = s.result)
    ∧ (hostAccess a s).arg = s.arg ∧ (hostAccess a s).cmd = s.cmd ∧ (hostAccess a s).ovf = s.ovf
    ∧ (hostAccess a s).cond = s.cond ∧ (hostAccess a s).rel = s.rel)

/-- R272: within one command the decode causes come first, whatever the registers hold, and DIVIDE_BY_ZERO last; so DIVMOD
with rd = rd2 and a zero divisor reports OPERAND_CONFLICT, and an unassigned opcode with high bits set reports
ILLEGAL_OPCODE. A protocol violation while the command is pending reports HOST_PROTOCOL, whatever the command is. -/
def Obligations.EarlierCauseWins : Prop :=
  ∀ (s : State) (w : CmdWord), s.busy = true → s.fault = false → s.pend = .command w →
    (∀ c, decode s.cfg.N w = .error c → ∃ t, unitTurn s = .next t ∧ s.Faulted t c)
    ∧ (∀ rd rd2 rs1 rs2 : Reg, s.value rs2 = 0 →
      decode s.cfg.N w = .ok (.divmod rd rd2 rs1 rs2) ∨ decode s.cfg.N w = .ok (.div rd rs1 rs2)
        ∨ decode s.cfg.N w = .ok (.mod rd rs1 rs2) → ∃ t, unitTurn s = .next t ∧ s.Faulted t .divideByZero)
    ∧ (∀ rd rs1 rs2 : Reg,
      w = BitVec.ofNat 32 (0x1C + rd.val * 2 ^ 6 + rs1.val * 2 ^ 10 + rs2.val * 2 ^ 14 + rd.val * 2 ^ 18) →
      s.value rs2 = 0 → ∃ t, unitTurn s = .next t ∧ s.Faulted t .operandConflict)
    ∧ (w.toNat % 64 ∈ [0x07, 0x0B, 0x0C, 0x0D, 0x0E, 0x0F, 0x14, 0x15, 0x16, 0x17, 0x19, 0x1A, 0x1B, 0x1F, 0x23]
        ∨ 0x26 ≤ w.toNat % 64 → ∃ t, unitTurn s = .next t ∧ s.Faulted t .illegalOpcode)
    ∧ (∀ a, s.Violation a → (hostAccess a s).fault = true ∧ (hostAccess a s).cause = .hostProtocol)

/-- R38: an access that is no violation is performed: a read delivers its CSR's value (readData is the model's way to
show it, log 4) and changes no state of the machine, a write of CMD starts a command, a write of ARG sets ARG. An access
that is a violation enters the fault state. -/
def Obligations.PermittedAccessesPerform : Prop :=
  ∀ s : State, s.fault = false →
    (∀ offset width, ¬ s.Violation (.read offset width) →
      s.SameMachine (hostRead offset width s)
      ∧ (offset = 0x00 → (hostRead offset width s).readData = some (s.cmd.setWidth 64))
      ∧ (offset = 0x08 → (hostRead offset width s).readData = some s.arg)
      ∧ (offset = 0x10 → (hostRead offset width s).readData = some s.result)
      ∧ (offset = 0x18 → (hostRead offset width s).readData = some (s.statusWord.setWidth 64))
      ∧ (offset = 0x20 → (hostRead offset width s).readData = some ((configWord s.cfg).setWidth 64)))
    ∧ (∀ offset width data, ¬ s.Violation (.write offset width data) →
      (offset = 0x00 → hostWrite offset width data s =
        { s with cmd := data.setWidth 32, pend := .command (data.setWidth 32), busy := true })
      ∧ (offset = 0x08 → hostWrite offset width data s = { s with arg := data }))
    ∧ (∀ a, s.Violation a → (hostAccess a s).fault = true ∧ (hostAccess a s).cause = .hostProtocol)

/-- R273: in the fault state every turn but a reset leaves the machine as it is, BUSY and CAUSE with it; every write has no
effect; reads answer the current values and unlisted offsets 0. -/
def Obligations.FaultStateIsQuiescent : Prop :=
  ∀ s : State, s.fault = true →
    (∀ (t : Turn) (u : State), t ≠ .reset → takeTurn t s = .next u → s.SameMachine u)
    ∧ (∀ offset width data, hostWrite offset width data s = s)
    ∧ (hostRead 0x00 32 s).readData = some (s.cmd.setWidth 64)
    ∧ (hostRead 0x08 64 s).readData = some s.arg
    ∧ (hostRead 0x10 64 s).readData = some s.result
    ∧ (hostRead 0x18 32 s).readData = some (s.statusWord.setWidth 64)
    ∧ (hostRead 0x20 32 s).readData = some ((configWord s.cfg).setWidth 64)
    ∧ (∀ offset width, offset ∉ [0x00, 0x08, 0x10, 0x18, 0x20] → (hostRead offset width s).readData = some 0)

/-- From R276, over the model's list of turns (log 2): reset is the only way out of the fault state. A run in which no
reset is listed keeps FAULT, the first CAUSE and all the machine's state, whatever the host does; a reset leaves it. -/
def Obligations.FirstCauseIsKept : Prop :=
  (∀ (s t : State) (k : Nat), s.fault = true → Turn.reset ∉ s.turns → stepN k s = .next t →
    t.fault = true ∧ t.cause = s.cause ∧ s.SameMachine t)
  ∧ (∀ s : State, ∃ t, takeTurn .reset s = .next t ∧ t.fault = false ∧ t.cause = .none)

/-- From R274 and R271: in the normal state exactly the accesses R274 lists are violations. Each raises FAULT with cause
HOST_PROTOCOL, BUSY falls, nothing is pending, and the access itself has no effect (R271); with no command pending V and
RESULT stay. That readData is as before, a violating read delivering nothing, is the model's choice (log 4): the spec does
not say what the bus shows the host then. -/
def Obligations.HostViolationsFault : Prop :=
  ∀ (s : State) (a : HostAccess), s.fault = false →
    ((hostAccess a s).fault = true ↔ s.Violation a)
    ∧ (s.Violation a →
      (hostAccess a s).cause = .hostProtocol ∧ (hostAccess a s).busy = false ∧ (hostAccess a s).pend = .none
      ∧ (hostAccess a s).cmd = s.cmd ∧ (hostAccess a s).arg = s.arg ∧ (hostAccess a s).readData = s.readData
      ∧ (hostAccess a s).ovf = s.ovf ∧ (hostAccess a s).cond = s.cond ∧ (hostAccess a s).rel = s.rel
      ∧ (s.pend = .none → (hostAccess a s).v = s.v ∧ (hostAccess a s).result = s.result))

/-- From R65: while BUSY = 1 no host access shows V, ARG or RESULT: two machines that differ only there answer every access
with the same data and the same STATUS and CMD after it. For a read that is a violation the data are the model's choice
(log 4: it delivers nothing). -/
def Obligations.BusyHidesPartialResults : Prop :=
  ∀ (s s' : State) (a : HostAccess), s.busy = true → s.fault = false →
    s' = { s with v := s'.v, arg := s'.arg, result := s'.result } →
    (hostAccess a s).readData = (hostAccess a s').readData
    ∧ (hostAccess a s).statusWord = (hostAccess a s').statusWord
    ∧ (hostAccess a s).cmd = (hostAccess a s').cmd

/-- R66: a CSR read leaves the machine as it was and a second one delivers the same data; writing ARG twice is writing
it once; a command word written twice runs twice: INC adds one each time. -/
def Obligations.ReadsAreIdempotentCommandsAreNot : Prop :=
  (∀ (s : State) (offset width : Nat), ¬ s.Violation (.read offset width) → s.fault = false →
    s.SameMachine (hostRead offset width s)
    ∧ (hostRead offset width (hostRead offset width s)).readData = (hostRead offset width s).readData)
  ∧ (∀ (s : State) (offset width : Nat) (data : Native), offset = 0x08 → ¬ s.Violation (.write offset width data) →
    s.fault = false →
    hostWrite offset width data (hostWrite offset width data s) = hostWrite offset width data s)
  ∧ (∀ (s : State) (r : Reg), s.LimbsOk → s.busy = false → s.fault = false →
    let wr := HostAccess.write 0x00 32 (BitVec.ofNat 64 (0x12 + r.val * 2 ^ 6 + r.val * 2 ^ 10))
    ∃ t u : State, unitTurn (hostAccess wr s) = .next t ∧ unitTurn (hostAccess wr t) = .next u
      ∧ u.value r = (s.value r + 2) % s.cfg.modulus)

/-- R29: BUSY rises at an accepted CMD write and at reset and at nothing else; it falls at the unit's step and at the entry
to the fault state; while it is 1 the response fields are those of the previous command. -/
def Obligations.BusyFollowsTheCommand : Prop :=
  ∀ (s u : State) (t : Turn), takeTurn t s = .next u →
    (t = .reset → u.busy = true)
    ∧ (∀ data, t = .host (.write 0x00 32 data) → s.busy = false → s.fault = false → u.busy = true)
    ∧ (s.busy = false → u.busy = true → t = .reset ∨ ∃ data, t = .host (.write 0x00 32 data))
    ∧ (t = .unit → s.fault = false → u.busy = false)
    ∧ (s.fault = false → u.fault = true → u.busy = false)
    ∧ (t ≠ .reset → u.busy = true → u.ovf = s.ovf ∧ u.cond = s.cond ∧ u.rel = s.rel)

/-- R304: commands never write ARG or CMD, and while BUSY = 1 no host access writes them either, so the ARGV a command uses
is the one at its CMD write. -/
def Obligations.ArgStableWhileBusy : Prop :=
  (∀ s u : State, unitTurn s = .next u → u.arg = s.arg ∧ u.cmd = s.cmd)
  ∧ (∀ (s : State) (a : HostAccess), s.busy = true → (hostAccess a s).arg = s.arg ∧ (hostAccess a s).cmd = s.cmd)

/-- From R35, R305, R271: RESULT changes only when the unit runs TON or GETL, at a reset, or when a pending TON or GETL is abandoned
by a protocol fault. -/
def Obligations.ResultChangesOnlyByTonGetl : Prop :=
  ∀ (s u : State) (t : Turn), takeTurn t s = .next u → u.result ≠ s.result →
    t = .reset
    ∨ ∃ w i, s.pend = .command w ∧ decode s.cfg.N w = .ok i ∧ (i.opcode = .ton ∨ i.opcode = .getl)
        ∧ (t = .unit ∨ (u.fault = true ∧ u.cause = .hostProtocol))

/-- R32: the STATUS word: BUSY bit 0, OVF bit 1, COND bit 2, REL bits 4:3, FAULT bit 8, CAUSE bits 11:9, every other bit 0.
A read answers it at any time with no side effect, and a write is a protocol violation. -/
def Obligations.StatusWordLayout : Prop :=
  ∀ s : State, s.statusWord.getLsbD 0 = s.busy ∧ s.statusWord.getLsbD 1 = s.ovf ∧ s.statusWord.getLsbD 2 = s.cond
    ∧ s.statusWord.toNat / 2 ^ 3 % 4 = (match s.rel with | .none => 0 | .less => 1 | .equal => 2 | .greater => 3)
    ∧ s.statusWord.toNat / 2 ^ 5 % 8 = 0 ∧ s.statusWord.getLsbD 8 = s.fault
    ∧ s.statusWord.toNat / 2 ^ 9 % 8 = (match s.cause with
        | .none => 0 | .illegalOpcode => 1 | .reservedNonzero => 2 | .operandConflict => 3 | .badLimbIndex => 4
        | .divideByZero => 5 | .hostProtocol => 6)
    ∧ s.statusWord.toNat < 2 ^ 12
    ∧ (hostRead 0x18 32 s).readData = some (s.statusWord.setWidth 64) ∧ s.SameMachine (hostRead 0x18 32 s)
    ∧ (s.fault = false → ∀ width data, (hostWrite 0x18 width data s).cause = .hostProtocol)

/-- R36: the CONFIG word: W in bits 7:0, N - 1 in bits 23:8, 15 in bits 27:24, bits 31:28 zero; reset does not
change it, a read answers it at any time with no side effect, and a write is a protocol violation. -/
def Obligations.ConfigWordLayout : Prop :=
  ∀ s : State, (configWord s.cfg).toNat % 2 ^ 8 = s.cfg.W ∧ (configWord s.cfg).toNat / 2 ^ 8 % 2 ^ 16 = s.cfg.N - 1
    ∧ (configWord s.cfg).toNat / 2 ^ 24 % 2 ^ 4 = 15 ∧ (configWord s.cfg).toNat < 2 ^ 28
    ∧ configWord (resetAgent s).cfg = configWord s.cfg
    ∧ (hostRead 0x20 32 s).readData = some ((configWord s.cfg).setWidth 64) ∧ s.SameMachine (hostRead 0x20 32 s)
    ∧ (s.fault = false → ∀ width data, (hostWrite 0x20 width data s).cause = .hostProtocol)

/-- R7: a pair (W, N) is elaborated exactly when it is legal, and to itself. -/
def Obligations.OnlyLegalConfigurationsExist : Prop :=
  ∀ w n : Nat,
    ((w = 8 ∨ w = 16 ∨ w = 32 ∨ w = 64) ∧ 1 ≤ n ∧ n ≤ 65536 →
      ∃ c, Config.elaborate w n = some c ∧ c.W = w ∧ c.N = n)
    ∧ (¬ ((w = 8 ∨ w = 16 ∨ w = 32 ∨ w = 64) ∧ 1 ≤ n ∧ n ≤ 65536) → Config.elaborate w n = none)

/-! ## Reset, invariants and progress (70_reset_and_hazards.md) -/

/-- R301: while PEND = INIT in a state of a run, STATUS reads 0x00000001, and the unit's turn only clears BUSY, leaving
STATUS 0. -/
def Obligations.InitOnlyClearsBusy : Prop :=
  ∀ s : State, s.Inv → s.pend = .init →
    s.statusWord = 1#32
    ∧ ∃ t, unitTurn s = .next t ∧ t = { s with busy := false, pend := t.pend } ∧ t.statusWord = 0#32

/-- R21: every step of every agent keeps the limb invariant: each register has exactly N limbs, each below BASE. -/
def Obligations.StepKeepsLimbInvariant : Prop :=
  ∀ s t : State, s.LimbsOk → step s = .next t → t.LimbsOk

/-- From a state that meets the invariant of State.Inv (it includes the latch's states of log 6) the machine never stops:
every step answers a next state, which meets it again in the same configuration. -/
def Obligations.StepKeepsInvariant : Prop :=
  ∀ s : State, s.Inv → ∃ t, step s = .next t ∧ t.Inv ∧ t.cfg = s.cfg

/-- R41, R300: from any state reset leaves every register 0, STATUS with BUSY = 1 only, PEND = INIT and CONFIG alone, and
the pending command has no effect. -/
def Obligations.ResetFromAnyState : Prop :=
  ∀ s : State, (∀ r : Reg, (resetAgent s).reg r = List.replicate s.cfg.N 0)
    ∧ (resetAgent s).cmd = 0 ∧ (resetAgent s).arg = 0 ∧ (resetAgent s).result = 0
    ∧ (resetAgent s).statusWord = 1#32 ∧ (resetAgent s).cause = .none ∧ (resetAgent s).fault = false
    ∧ (resetAgent s).busy = true ∧ (resetAgent s).pend = .init ∧ (resetAgent s).cfg = s.cfg
    ∧ takeTurn .reset s = .next (resetAgent s)

/-- The invariant State.Inv (it includes the latch's states of log 6) holds right after reset, in every configuration. -/
def Obligations.ResetMeetsInvariant : Prop := ∀ c : Config, (State.resetOf c).Inv

/-- From R309, in the form of log 2: once the listed turns are spent, one more step leaves BUSY = 0, so every pending command
and every INIT is over by then. The state then meets State.Inv again; its clause that nothing is pending while BUSY = 0 is
the model's reading (log 6, DEDUCED), no rule of the spec. -/
def Obligations.PendingWorkCompletes : Prop :=
  ∀ s : State, s.Inv → ∃ t, stepN (s.turns.length + 1) s = .next t ∧ t.busy = false ∧ t.Inv

/-! ## Values and limbs (00_scope.md R12, 20_memory.md R61, 41_comparator.md R113) -/

/-- R12: the value of a register is the sum of its limbs times BASE^i, below BASE^N; enc(x) has N limbs, limb i being
(x div BASE^i) mod BASE; the two are inverse, and a register written with enc(x) has the value x. -/
def Obligations.ValueEncodesToLimbs : Prop :=
  ∀ (s : State) (r : Reg), s.LimbsOk →
    s.value r = ((List.range s.cfg.N).map fun i => s.limb r i * s.cfg.base ^ i).sum
    ∧ s.value r < s.cfg.modulus ∧ s.encode (s.value r) = s.reg r
    ∧ (∀ x, x < s.cfg.modulus → (s.encode x).length = s.cfg.N ∧ (s.setReg r (s.encode x)).value r = x
        ∧ ∀ i, i < s.cfg.N → (s.setReg r (s.encode x)).limb r i = x / s.cfg.base ^ i % s.cfg.base)
    ∧ (∀ i, i < s.cfg.N → s.limb r i = s.value r / s.cfg.base ^ i % s.cfg.base)

/-- R61: bit b of limb i is bit i·W + b of val(V[r]). -/
def Obligations.LimbBitsAreValueBits : Prop :=
  ∀ (s : State) (r : Reg) (i b : Nat), s.LimbsOk → i < s.cfg.N → b < s.cfg.W →
    (s.limb r i).testBit b = (s.value r).testBit (i * s.cfg.W + b)

/-- R113: the active limb count is 0 exactly for the zero vector and otherwise one more than the index of the top non-zero
limb; it is at most N and bounds the value. -/
def Obligations.ActiveLimbCount : Prop :=
  ∀ (s : State) (r : Reg), s.LimbsOk →
    (alc (s.reg r) = 0 ↔ ∀ i, s.limb r i = 0)
    ∧ (∀ k, alc (s.reg r) = k + 1 ↔ s.limb r k ≠ 0 ∧ ∀ j, k < j → s.limb r j = 0)
    ∧ alc (s.reg r) ≤ s.cfg.N ∧ s.value r < s.cfg.base ^ alc (s.reg r)

/-! ## Pseudo-instructions (30_encoding.md R98) -/

/-- From R98: the relations read from STATUS after their expansion's command are the relations of the values. -/
def Obligations.RelationPseudosAreTrue : Prop :=
  ∀ (s : State) (a b : Reg), s.LimbsOk →
    ∃ t e : State, exec (.cmp a b) s = .next t ∧ exec (.eq a b) s = .next e
      ∧ Pseudo.truth t.statusWord (.lt a b) = some (decide (s.value a < s.value b))
      ∧ Pseudo.truth t.statusWord (.le a b) = some (decide (s.value a ≤ s.value b))
      ∧ Pseudo.truth t.statusWord (.gt a b) = some (decide (s.value a > s.value b))
      ∧ Pseudo.truth t.statusWord (.ge a b) = some (decide (s.value a ≥ s.value b))
      ∧ Pseudo.truth e.statusWord (.ne a b) = some (decide (s.value a ≠ s.value b))
end

