-- ==== Sys2Proof/Laws/Encoding.lean ====
section
/-!
SUPPORT. The fields of the two word formats, read and written (30_encoding.md R82 to R86), and the opcode map both ways.
-/

namespace Sys2Proof.Laws

/-- The register fields of a format R word are its registers (30_encoding.md R82). -/
theorem formatR_fields (o : Opcode) (rd rs1 rs2 rd2 : Reg) :
    regField (formatR o rd rs1 rs2 rd2) 6 = rd ∧ regField (formatR o rd rs1 rs2 rd2) 10 = rs1
      ∧ regField (formatR o rd rs1 rs2 rd2) 14 = rs2 ∧ regField (formatR o rd rs1 rs2 rd2) 18 = rd2 := by
  have ho : o.code < 2 ^ 6 := by cases o <;> decide
  have h1 := rd.isLt
  have h2 := rs1.isLt
  have h3 := rs2.isLt
  have h4 := rd2.isLt
  simp only [regField, field, formatR, BitVec.toNat_ofNat]
  refine ⟨Fin.ext ?_, Fin.ext ?_, Fin.ext ?_, Fin.ext ?_⟩ <;> simp only [Fin.ofNat] <;> omega

/-- The fields of a format L word are its register and its index (30_encoding.md R83). -/
theorem formatL_fields (o : Opcode) (r : Reg) (idx : LimbIdx) :
    regField (formatL o r idx) 6 = r ∧ idxField (formatL o r idx) = idx := by
  have ho : o.code < 2 ^ 6 := by cases o <;> decide
  have h1 := r.isLt
  have h2 := idx.isLt
  simp only [regField, idxField, field, formatL, BitVec.toNat_ofNat]
  refine ⟨Fin.ext ?_, Fin.ext ?_⟩ <;> simp only [Fin.ofNat] <;> omega

/-- A word is the format R word of its fields when bits 31:22 are 0 (30_encoding.md R82). -/
theorem formatR_of_fields {o : Opcode} {w : CmdWord} (h0 : field w 0 6 = o.code) (h : field w 22 10 = 0) :
    formatR o (regField w 6) (regField w 10) (regField w 14) (regField w 18) = w := by
  apply BitVec.eq_of_toNat_eq
  have hw := w.isLt
  simp only [field] at h0 h
  simp only [formatR, ← h0, regField, field, Fin.ofNat, BitVec.toNat_ofNat]
  omega

/-- A word is the format L word of its fields when bits 15:10 are 0 (30_encoding.md R83). -/
theorem formatL_of_fields {o : Opcode} {w : CmdWord} (h0 : field w 0 6 = o.code) (h : field w 10 6 = 0) :
    formatL o (regField w 6) (idxField w) = w := by
  apply BitVec.eq_of_toNat_eq
  have hw := w.isLt
  simp only [field] at h0 h
  simp only [formatL, ← h0, regField, idxField, field, Fin.ofNat, BitVec.toNat_ofNat]
  omega

/-- A register field of zeros names V0. -/
theorem regField_zero {w : CmdWord} {lo : Nat} (h : field w lo 4 = 0) : regField w lo = 0 := by simp [regField, h]

/-- Where the mask has only ones, a matching word has the pattern's field (30_encoding.md R86). -/
theorem field_of_mask {w m p : CmdWord} (h : w &&& m = p) (lo len : Nat)
    (hm : m.extractLsb' lo len = BitVec.allOnes len) : field w lo len = field p lo len := by
  have extract : ∀ x : CmdWord, field x lo len = (x.extractLsb' lo len).toNat := fun x => by
    simp [field, BitVec.extractLsb'_toNat, Nat.shiftRight_eq_div_pow]
  rw [extract, extract, ← h, BitVec.extractLsb'_and, hm]
  simp

/-- Each assigned opcode is found under its own code (30_encoding.md R85). -/
theorem ofCode_code (o : Opcode) : Opcode.ofCode o.code = some o := by cases o <;> decide

/-- A code names at most one opcode (30_encoding.md R85). -/
theorem code_of_ofCode {c : Nat} {o : Opcode} (h : Opcode.ofCode c = some o) : o.code = c := by
  simpa using List.find?_some h

end Sys2Proof.Laws
end

