-- ==== Sys2Proof/Laws/Limbs.lean ====
section
/-!
SUPPORT. Limb vectors and their values: `val` and `enc` are inverse on vectors of bounded limbs (00_scope.md R12), the
bounds of R6, and the active limb count (41_comparator.md R113).
-/

namespace Sys2Proof

theorem Config.base_pos (c : Config) : 0 < c.base := Nat.two_pow_pos _

theorem Config.base_gt_one (c : Config) : 1 < c.base := by
  have : c.W ≠ 0 := by rcases c.hW with h | h | h | h <;> omega
  exact Nat.one_lt_two_pow this

theorem Config.modulus_pos (c : Config) : 0 < c.modulus := Nat.pow_pos c.base_pos

theorem Config.modulus_gt_one (c : Config) : 1 < c.modulus :=
  Nat.one_lt_pow (by have := c.hN; omega) c.base_gt_one

/-- BASE^N = 2^TB (00_scope.md R6). -/
theorem Config.modulus_eq_two_pow (c : Config) : c.modulus = 2 ^ c.totalBits := by
  rw [Config.modulus, Config.base, Config.totalBits, ← pow_mul, Nat.mul_comm]

namespace Machine

variable {b : Nat}

@[simp] theorem enc_length (n x : Nat) : (enc b n x).length = n := by
  induction n generalizing x with
  | zero => rfl
  | succ n ih => simp [enc, ih]

theorem enc_lt (hb : 0 < b) (n x : Nat) : ∀ y ∈ enc b n x, y < b := by
  induction n generalizing x with
  | zero => simp [enc]
  | succ n ih =>
    intro y hy
    rcases List.mem_cons.mp hy with rfl | hy
    · exact Nat.mod_lt _ hb
    · exact ih _ y hy

theorem val_enc (n x : Nat) : val b (enc b n x) = x % b ^ n := by
  induction n generalizing x with
  | zero => simp [enc, val, Nat.mod_one]
  | succ n ih => rw [enc, val, ih, pow_succ', Nat.mod_mul]

theorem val_enc_of_lt {n x : Nat} (h : x < b ^ n) : val b (enc b n x) = x := by
  rw [val_enc, Nat.mod_eq_of_lt h]

theorem val_lt {l : List Nat} (h : ∀ x ∈ l, x < b) : val b l < b ^ l.length := by
  induction l with
  | nil => simp [val]
  | cons a l ih =>
    have ha := h a (by simp)
    have hl := ih fun x hx => h x (by simp [hx])
    rw [val, List.length_cons, pow_succ']
    calc a + b * val b l < b + b * val b l := by omega
      _ = b * (val b l + 1) := by ring
      _ ≤ b * b ^ l.length := Nat.mul_le_mul_left _ hl

theorem enc_val {l : List Nat} (h : ∀ x ∈ l, x < b) : enc b l.length (val b l) = l := by
  induction l with
  | nil => rfl
  | cons a l ih =>
    have ha := h a (by simp)
    rw [val, List.length_cons, enc, Nat.add_mul_mod_self_left, Nat.mod_eq_of_lt ha,
      Nat.add_mul_div_left _ _ (by omega), Nat.div_eq_of_lt ha, Nat.zero_add,
      ih fun x hx => h x (by simp [hx])]

/-- Equal values have equal limbs, so EQ and CMP agree with identity of limbs (41_comparator.md R114). -/
theorem val_inj {l m : List Nat} (hl : ∀ x ∈ l, x < b) (hm : ∀ x ∈ m, x < b) (hlen : l.length = m.length)
    (h : val b l = val b m) : l = m := by
  rw [← enc_val hl, ← enc_val hm, hlen, h]

@[simp] theorem val_replicate_zero (n : Nat) : val b (List.replicate n 0) = 0 := by
  induction n with
  | zero => rfl
  | succ n ih => simp [List.replicate_succ, val, ih]

/-- Limb i of a bounded vector is the base-BASE digit i of its value (00_scope.md R12). -/
theorem val_digit {l : List Nat} (h : ∀ x ∈ l, x < b) (i : Nat) : val b l / b ^ i % b = l.getD i 0 := by
  induction l generalizing i with
  | nil => simp [val]
  | cons a l ih =>
    have ha := h a (by simp)
    have hl := fun x hx => h x (List.mem_cons_of_mem a hx)
    cases i with
    | zero => simp [val, Nat.add_mul_mod_self_left, Nat.mod_eq_of_lt ha]
    | succ i =>
      rw [val, pow_succ', ← Nat.div_div_eq_div_mul, Nat.add_mul_div_left _ _ (by omega), Nat.div_eq_of_lt ha,
        Nat.zero_add, ih hl, List.getD_cons_succ]

theorem getD_lt {l : List Nat} (hb : 0 < b) (h : ∀ x ∈ l, x < b) (i : Nat) : l.getD i 0 < b := by
  rw [← val_digit h i]
  exact Nat.mod_lt _ hb

/-- A zero value has only zero limbs (41_comparator.md R112). -/
theorem val_eq_zero_iff (hb : 0 < b) (l : List Nat) : val b l = 0 ↔ ∀ x ∈ l, x = 0 := by
  induction l with
  | nil => simp [val]
  | cons a l ih =>
    rw [val, Nat.add_eq_zero_iff, Nat.mul_eq_zero, ih]
    simp [Nat.pos_iff_ne_zero.mp hb]

theorem val_append (l m : List Nat) : val b (l ++ m) = val b l + b ^ l.length * val b m := by
  induction l with
  | nil => simp [val]
  | cons a l ih => rw [List.cons_append, val, val, ih, List.length_cons, pow_succ']; ring

/-- A vector written limb by limb in order, from its digits. -/
theorem val_map_range (f : Nat → Nat) (n : Nat) :
    val b ((List.range n).map f) = ((List.range n).map fun i => f i * b ^ i).sum := by
  induction n with
  | zero => rfl
  | succ n ih => simp [List.range_succ, val_append, ih, val, Nat.mul_comm]

theorem val_take (l : List Nat) {k : Nat} (hk : k ≤ l.length) :
    val b (l.take k) = ((List.range k).map fun j => l.getD j 0 * b ^ j).sum := by
  rw [← val_map_range]
  congr 1
  apply List.ext_getElem
  · simp [hk]
  · intro i h1 h2
    have : i < l.length := by simp at h1; omega
    simp [List.getElem?_eq_getElem this]

theorem val_take_succ (l : List Nat) {k : Nat} (hk : k < l.length) :
    val b (l.take (k + 1)) = val b (l.take k) + b ^ k * l.getD k 0 := by
  rw [val_take l (by omega), val_take l (by omega), List.range_succ]
  simp [Nat.mul_comm]

theorem val_take_modEq (l : List Nat) {k : Nat} (hk : k ≤ l.length) : val b (l.take k) ≡ val b l [MOD b ^ k] := by
  conv_rhs => rw [← List.take_append_drop k l, val_append, List.length_take, Nat.min_eq_left hk]
  exact (Nat.ModEq.refl _).trans (by simp [Nat.ModEq])

/-- Bit b of limb i is bit i·W + b of the value (20_memory.md R61). -/
theorem val_testBit {w : Nat} (l : List Nat) (h : ∀ x ∈ l, x < 2 ^ w) (hw : 0 < w) (j : Nat) :
    (val (2 ^ w) l).testBit j = (l.getD (j / w) 0).testBit (j % w) := by
  rw [← val_digit h, ← pow_mul, Nat.testBit_mod_two_pow, Nat.testBit_div_two_pow]
  simp [Nat.mod_lt _ hw, Nat.mod_add_div]

/-- Quotient and remainder of a number written as digit plus multiple. -/
theorem div_mod_of_digit {w a : Nat} (h : a < w) (q : Nat) : (a + w * q) / w = q ∧ (a + w * q) % w = a := by
  rw [Nat.add_mul_div_left _ _ (by omega), Nat.add_mul_mod_self_left, Nat.div_eq_of_lt h, Nat.mod_eq_of_lt h]
  simp

/-- The active limb count bounds the value and the length (41_comparator.md R113). -/
theorem alc_le_length (l : List Nat) : alc l ≤ l.length := by
  induction l with
  | nil => simp [alc]
  | cons a l ih => simp only [alc, List.length_cons]; split <;> (try split) <;> omega

end Machine
end Sys2Proof
end

