-- ==== Sys2Proof/Laws/Engines.lean ====
section
/-!
SUPPORT. One lemma a limb loop: its length, its bounds and its value.
-/

namespace Sys2Proof.Machine

variable {b : Nat}

/-! ## The adder -/

theorem addLimbs_length {l m : List Nat} (h : l.length = m.length) (c : Nat) :
    (addLimbs b c l m).1.length = l.length := by
  induction l generalizing m c with
  | nil => cases m <;> simp [addLimbs]
  | cons a l ih =>
    cases m with
    | nil => simp at h
    | cons d m => simp [addLimbs, ih (Nat.succ.inj h)]

theorem addLimbs_lt (hb : 0 < b) (l m : List Nat) (c : Nat) : ∀ x ∈ (addLimbs b c l m).1, x < b := by
  induction l generalizing m c with
  | nil => cases m <;> simp [addLimbs]
  | cons a l ih =>
    cases m with
    | nil => simp [addLimbs]
    | cons d m =>
      intro x hx
      rcases List.mem_cons.mp hx with rfl | hx
      · exact Nat.mod_lt _ hb
      · exact ih _ _ x hx

/-- The loop is base-BASE addition: the limbs and the carry out together are the exact sum (42_additive.md R130). -/
theorem addLimbs_val {l m : List Nat} (h : l.length = m.length) (c : Nat) :
    val b (addLimbs b c l m).1 + b ^ l.length * (addLimbs b c l m).2 = val b l + val b m + c := by
  induction l generalizing m c with
  | nil => cases m <;> simp_all [addLimbs, val]
  | cons a l ih =>
    cases m with
    | nil => simp at h
    | cons d m =>
      have e := ih (Nat.succ.inj h) ((a + d + c) / b)
      have q := Nat.mod_add_div (a + d + c) b
      simp only [addLimbs, val, List.length_cons, pow_succ']
      calc _ = (a + d + c) % b + b * (val b (addLimbs b ((a + d + c) / b) l m).1
                + b ^ l.length * (addLimbs b ((a + d + c) / b) l m).2) := by ring
        _ = (a + d + c) % b + b * ((a + d + c) / b) + b * (val b l + val b m) := by rw [e]; ring
        _ = _ := by rw [q]; ring

/-! ## The subtractor -/

theorem subLimbs_length {l m : List Nat} (h : l.length = m.length) (c : Nat) :
    (subLimbs b c l m).1.length = l.length := by
  induction l generalizing m c with
  | nil => cases m <;> simp [subLimbs]
  | cons a l ih =>
    cases m with
    | nil => simp at h
    | cons d m => unfold subLimbs; split <;> simp [ih (Nat.succ.inj h)]

theorem subLimbs_lt {l m : List Nat} (hl : ∀ x ∈ l, x < b) (c : Nat) : ∀ x ∈ (subLimbs b c l m).1, x < b := by
  induction l generalizing m c with
  | nil => cases m <;> simp [subLimbs]
  | cons a l ih =>
    have ha := hl a (by simp)
    have ih := fun c m => ih (m := m) (fun x hx => hl x (by simp [hx])) c
    cases m with
    | nil => simp [subLimbs]
    | cons d m =>
      intro x hx
      unfold subLimbs at hx
      split at hx
      · rcases List.mem_cons.mp hx with rfl | hx
        · omega
        · exact ih _ _ x hx
      · rcases List.mem_cons.mp hx with rfl | hx
        · omega
        · exact ih _ _ x hx

/-- The loop is base-BASE subtraction: minuend plus the borrow out is difference plus subtrahend (42_additive.md R131). -/
theorem subLimbs_val {l m : List Nat} (h : l.length = m.length) (hm : ∀ x ∈ m, x < b) {c : Nat} (hc : c ≤ 1) :
    val b (subLimbs b c l m).1 + val b m + c = val b l + b ^ l.length * (subLimbs b c l m).2
      ∧ (subLimbs b c l m).2 ≤ 1 := by
  induction l generalizing m c with
  | nil => cases m <;> simp_all [subLimbs, val]
  | cons a l ih =>
    cases m with
    | nil => simp at h
    | cons d m =>
      have hd := hm d (by simp)
      have ih := fun {c} => ih (c := c) (Nat.succ.inj h) (fun x hx => hm x (by simp [hx]))
      unfold subLimbs
      split
      · obtain ⟨e, le⟩ := ih (le_refl 1)
        refine ⟨?_, le⟩
        simp only [val, List.length_cons, pow_succ']
        have e' := congrArg (b * ·) e
        simp only [Nat.mul_add, ← Nat.mul_assoc] at e'
        omega
      · obtain ⟨e, le⟩ := ih (Nat.zero_le 1)
        refine ⟨?_, le⟩
        simp only [val, List.length_cons, pow_succ']
        have e' := congrArg (b * ·) e
        simp only [Nat.mul_add, ← Nat.mul_assoc] at e'
        omega

/-! ## Increment and decrement -/

theorem incLimbs_length (l : List Nat) : (incLimbs b l).1.length = l.length := by
  induction l with
  | nil => rfl
  | cons a l ih => unfold incLimbs; dsimp only; split <;> simp [ih]

theorem incLimbs_lt (hb : 0 < b) {l : List Nat} (hl : ∀ x ∈ l, x < b) : ∀ x ∈ (incLimbs b l).1, x < b := by
  induction l with
  | nil => simp [incLimbs]
  | cons a l ih =>
    intro x hx
    unfold incLimbs at hx
    dsimp only at hx
    split at hx
    · rcases List.mem_cons.mp hx with rfl | hx
      · exact Nat.mod_lt _ hb
      · exact hl x (by simp [hx])
    · rcases List.mem_cons.mp hx with rfl | hx
      · exact Nat.mod_lt _ hb
      · exact ih (fun x hx => hl x (by simp [hx])) x hx

/-- The short-circuit loop adds exactly one (42_additive.md R132). -/
theorem incLimbs_val {l : List Nat} (hl : ∀ x ∈ l, x < b) :
    val b (incLimbs b l).1 + b ^ l.length * (incLimbs b l).2 = val b l + 1 ∧ (incLimbs b l).2 ≤ 1 := by
  induction l with
  | nil => simp [incLimbs, val]
  | cons a l ih =>
    have ha := hl a (by simp)
    obtain ⟨e, le⟩ := ih fun x hx => hl x (by simp [hx])
    unfold incLimbs
    dsimp only
    split
    · have : a + 1 < b := by
        by_contra hlt
        have : a + 1 = b := by omega
        simp_all
      simp [val, Nat.mod_eq_of_lt this]
      omega
    · rename_i h0
      have : a + 1 = b := by
        by_contra hne
        have : a + 1 < b := by omega
        simp [Nat.mod_eq_of_lt this] at h0
      refine ⟨?_, le⟩
      have e' := congrArg (b * ·) e
      simp only [Nat.mul_add, ← Nat.mul_assoc] at e'
      simp only [val, List.length_cons, pow_succ']
      simp [this]
      omega

theorem decLimbs_length (l : List Nat) : (decLimbs b l).1.length = l.length := by
  induction l with
  | nil => rfl
  | cons a l ih => unfold decLimbs; dsimp only; split <;> simp [ih]

theorem decLimbs_lt (hb : 0 < b) {l : List Nat} (hl : ∀ x ∈ l, x < b) : ∀ x ∈ (decLimbs b l).1, x < b := by
  induction l with
  | nil => simp [decLimbs]
  | cons a l ih =>
    intro x hx
    unfold decLimbs at hx
    dsimp only at hx
    split at hx
    · rcases List.mem_cons.mp hx with rfl | hx
      · exact Nat.mod_lt _ hb
      · exact hl x (by simp [hx])
    · rcases List.mem_cons.mp hx with rfl | hx
      · exact Nat.mod_lt _ hb
      · exact ih (fun x hx => hl x (by simp [hx])) x hx

/-- The short-circuit loop subtracts exactly one (42_additive.md R133). -/
theorem decLimbs_val {l : List Nat} (hl : ∀ x ∈ l, x < b) :
    val b (decLimbs b l).1 + 1 = val b l + b ^ l.length * (decLimbs b l).2 ∧ (decLimbs b l).2 ≤ 1 := by
  induction l with
  | nil => simp [decLimbs, val]
  | cons a l ih =>
    have ha := hl a (by simp)
    obtain ⟨e, le⟩ := ih fun x hx => hl x (by simp [hx])
    have wrap : a ≠ 0 → (a + b - 1) % b = a - 1 := fun h => by
      rw [show a + b - 1 = a - 1 + b by omega, Nat.add_mod_right, Nat.mod_eq_of_lt (by omega)]
    have wrap0 : a = 0 → (a + b - 1) % b = b - 1 := fun h => by
      rw [h, Nat.zero_add, Nat.mod_eq_of_lt (by omega)]
    unfold decLimbs
    dsimp only
    split
    · rename_i h0
      have : a ≠ 0 := fun h => h0 (wrap0 h)
      simp [val, wrap this]
      omega
    · rename_i h0
      have : a = 0 := by
        by_contra h
        have := wrap h
        omega
      refine ⟨?_, le⟩
      have e' := congrArg (b * ·) e
      simp only [Nat.mul_add, ← Nat.mul_assoc] at e'
      simp only [val, List.length_cons, pow_succ']
      rw [wrap0 this]
      omega

/-! ## The comparator -/

/-- Zipped with a vector of the same length, most significant pair first, the scan gives the order of the values
(41_comparator.md R110). -/
theorem compareLimbs_eq {l m : List Nat} (hlen : l.length = m.length) (hl : ∀ x ∈ l, x < b) (hm : ∀ x ∈ m, x < b) :
    compareLimbs l m = Rel.ofNats (val b l) (val b m) := by
  have append : ∀ (p : List (Nat × Nat)) (q : Nat × Nat),
      scanPairs (p ++ [q]) = if scanPairs p = .equal then Rel.ofNats q.1 q.2 else scanPairs p := by
    intro p q
    induction p with
    | nil =>
      obtain ⟨x, y⟩ := q
      rcases Nat.lt_trichotomy x y with h | h | h
      · simp [scanPairs, Rel.ofNats, h, Nat.ne_of_lt h]
      · simp [scanPairs, Rel.ofNats, h]
      · simp [scanPairs, Rel.ofNats, Nat.ne_of_gt h, Nat.lt_asymm h]
    | cons a p ih =>
      simp only [List.cons_append, scanPairs]
      split
      · split <;> simp
      · exact ih
  induction l generalizing m with
  | nil => cases m <;> simp_all [compareLimbs, scanPairs, val, Rel.ofNats]
  | cons a l ih =>
    cases m with
    | nil => simp at hlen
    | cons d m =>
      have ha := hl a (by simp)
      have hd := hm d (by simp)
      have e := ih (Nat.succ.inj hlen) (fun x hx => hl x (by simp [hx])) (fun x hx => hm x (by simp [hx]))
      unfold compareLimbs at e ⊢
      rw [List.zip_cons_cons, List.reverse_cons, append, e]
      have lt : ∀ u v : Nat, u < v → b * u + b ≤ b * v := fun u v h => by
        have := Nat.mul_le_mul_left b h
        rw [Nat.mul_succ] at this
        exact this
      simp only [Rel.ofNats, val]
      rcases Nat.lt_trichotomy (val b l) (val b m) with h | h | h
      · have := lt _ _ h
        have h1 : a + b * val b l < d + b * val b m := by omega
        simp [h, h1]
      · simp [h]
      · have := lt _ _ h
        have h1 : ¬ val b l < val b m := by omega
        have h2 : ¬ val b l = val b m := by omega
        have h3 : ¬ a + b * val b l < d + b * val b m := by omega
        have h4 : ¬ a + b * val b l = d + b * val b m := by omega
        simp [h1, h2, h3, h4]

/-- EQ's test is identity of limbs (41_comparator.md R111). -/
theorem equalLimbs_iff {l m : List Nat} (hlen : l.length = m.length) : equalLimbs l m = true ↔ l = m := by
  induction l generalizing m with
  | nil => cases m <;> simp_all [equalLimbs]
  | cons a l ih =>
    cases m with
    | nil => simp at hlen
    | cons d m =>
      have := ih (Nat.succ.inj hlen)
      simp_all [equalLimbs]

/-- ISZ's test (41_comparator.md R112). -/
theorem zeroLimbs_iff (hb : 0 < b) (l : List Nat) : zeroLimbs l = true ↔ val b l = 0 := by
  simp [zeroLimbs, val_eq_zero_iff hb]

/-! ## The multiplier -/

/-- Dropping the pairs with i + j ≥ n changes the product by a multiple of BASE^n (43_multiply.md R160). -/
theorem keptProducts_mod (l m : List Nat) {n : Nat} (hl : l.length = n) (hm : m.length = n) :
    keptProducts b n l m % b ^ n = val b l * val b m % b ^ n := by
  have rows : ∀ k ≤ n, ((List.range k).map (productRow b n l m)).sum ≡ val b (l.take k) * val b m [MOD b ^ n] := by
    intro k hk
    induction k with
    | zero => simp [val, Nat.ModEq]
    | succ k ih =>
      have row : productRow b n l m k ≡ b ^ k * l.getD k 0 * val b m [MOD b ^ n] := by
        have e : productRow b n l m k = l.getD k 0 * (b ^ k * val b (m.take (n - k))) := by
          rw [val_take m (by omega), ← List.sum_map_mul_left, ← List.sum_map_mul_left]
          simp only [productRow, pow_add]
          congr 1
          apply List.map_congr_left
          intro j _
          ring
        have h := (val_take_modEq (b := b) m (k := n - k) (by omega)).mul_left' (b ^ k)
        rw [← pow_add, Nat.add_sub_cancel' (by omega)] at h
        rw [e, show b ^ k * l.getD k 0 * val b m = l.getD k 0 * (b ^ k * val b m) by ring]
        exact h.mul_left _
      rw [List.range_succ, List.map_append, List.sum_append, val_take_succ l (by omega), Nat.add_mul]
      simpa using (ih (by omega)).add row
  have h := rows n le_rfl
  rwa [List.take_of_length_le (by omega)] at h

/-! ## The divider -/

/-- With fuel enough the trial subtraction divides (44_divide.md R183, step 4b). -/
theorem trialSubtract_eq {d : Nat} (hd : 0 < d) (fuel win c : Nat) (hf : win ≤ fuel) :
    trialSubtract d fuel win c = (win % d, c + win / d) := by
  induction fuel generalizing win c with
  | zero =>
    have : win = 0 := by omega
    simp [trialSubtract, this]
  | succ fuel ih =>
    unfold trialSubtract
    split
    · rename_i h
      rw [ih _ _ (by omega), Nat.div_eq_sub_div hd h, ← Nat.mod_eq_sub_mod h]
      simp; omega
    · rename_i h
      rw [Nat.mod_eq_of_lt (by omega), Nat.div_eq_of_lt (by omega)]
      simp

/-- Step 4 appends the low `k` limbs to the window, dividing as it goes (44_divide.md R183). -/
theorem digitLoop_eq {d : Nat} (hd : 0 < d) (l : List Nat) (k q win : Nat) (hk : k ≤ l.length) (hw : win < d) :
    digitLoop b d l k q win =
      (q * b ^ k + (win * b ^ k + val b (l.take k)) / d, (win * b ^ k + val b (l.take k)) % d) := by
  induction k generalizing q win with
  | zero => simp [digitLoop, val, Nat.div_eq_of_lt hw, Nat.mod_eq_of_lt hw]
  | succ k ih =>
    rw [digitLoop, trialSubtract_eq hd _ _ _ le_rfl, ih _ _ (by omega) (Nat.mod_lt _ hd), val_take_succ l (by omega)]
    have q' := Nat.mod_add_div (win * b + l.getD k 0) d
    have e : win * b ^ (k + 1) + (val b (l.take k) + b ^ k * l.getD k 0)
        = (win * b + l.getD k 0) % d * b ^ k + val b (l.take k) + d * ((win * b + l.getD k 0) / d * b ^ k) := by
      calc _ = (win * b + l.getD k 0) * b ^ k + val b (l.take k) := by ring
        _ = _ := by conv_lhs => rw [← q']
                    ring
    rw [e, Nat.add_mul_div_left _ _ hd, Nat.add_mul_mod_self_left]
    simp only [Nat.zero_add, Prod.mk.injEq, and_true]
    ring

/-! ## The bitwise engine -/

theorem zipWith_getD (f : Nat → Nat → Nat) (hf : f 0 0 = 0) {l m : List Nat} (hlen : l.length = m.length) (i : Nat) :
    (List.zipWith f l m).getD i 0 = f (l.getD i 0) (m.getD i 0) := by
  induction l generalizing m i with
  | nil => cases m <;> simp_all
  | cons a l ih =>
    cases m with
    | nil => simp at hlen
    | cons d m =>
      cases i with
      | zero => simp
      | succ i => simpa using ih (Nat.succ.inj hlen) i

/-- A bit operation on limbs acts on the value's bits (45_bitwise.md R215). -/
theorem zipWith_lt {w : Nat} {f : Nat → Nat → Nat} (hf : ∀ x y, x < 2 ^ w → y < 2 ^ w → f x y < 2 ^ w) {l m : List Nat}
    (hl : ∀ x ∈ l, x < 2 ^ w) (hm : ∀ x ∈ m, x < 2 ^ w) : ∀ x ∈ List.zipWith f l m, x < 2 ^ w := by
  induction l generalizing m with
  | nil => simp
  | cons a l ih =>
    cases m with
    | nil => simp
    | cons d m =>
      simp only [List.zipWith_cons_cons, List.mem_cons, forall_eq_or_imp]
      exact ⟨hf _ _ (hl a (by simp)) (hm d (by simp)),
        ih (fun x hx => hl x (by simp [hx])) (fun x hx => hm x (by simp [hx]))⟩

theorem val_zipWith {w : Nat} (hw : 0 < w) (f : Nat → Nat → Nat) (g : Bool → Bool → Bool)
    (hfg : ∀ x y j, (f x y).testBit j = g (x.testBit j) (y.testBit j)) (hf0 : f 0 0 = 0)
    (hf : ∀ x y, x < 2 ^ w → y < 2 ^ w → f x y < 2 ^ w) {l m : List Nat} (hlen : l.length = m.length)
    (hl : ∀ x ∈ l, x < 2 ^ w) (hm : ∀ x ∈ m, x < 2 ^ w) :
    val (2 ^ w) (List.zipWith f l m) = f (val (2 ^ w) l) (val (2 ^ w) m) := by
  apply Nat.eq_of_testBit_eq
  intro j
  rw [val_testBit _ (zipWith_lt hf hl hm) hw, hfg, val_testBit _ hl hw, val_testBit _ hm hw, zipWith_getD f hf0 hlen, hfg]

theorem map_range_getD (f : Nat → Nat) (n i : Nat) : ((List.range n).map f).getD i 0 = if i < n then f i else 0 := by
  by_cases h : i < n <;> simp [h]

theorem shlLimb_lt (w : Nat) {l : List Nat} (hl : ∀ x ∈ l, x < 2 ^ w) (k s i : Nat) : shlLimb w l k s i < 2 ^ w := by
  unfold shlLimb
  apply Nat.or_lt_two_pow
  · split
    · exact Nat.mod_lt _ (Nat.two_pow_pos _)
    · exact Nat.two_pow_pos _
  · split
    · exact Nat.lt_of_le_of_lt (Nat.div_le_self _ _) (getD_lt (Nat.two_pow_pos _) hl _)
    · exact Nat.two_pow_pos _

theorem shrLimb_lt (w n : Nat) {l : List Nat} (hl : ∀ x ∈ l, x < 2 ^ w) (k s i : Nat) : shrLimb w n l k s i < 2 ^ w := by
  unfold shrLimb
  apply Nat.or_lt_two_pow
  · split
    · exact Nat.lt_of_le_of_lt (Nat.div_le_self _ _) (getD_lt (Nat.two_pow_pos _) hl _)
    · exact Nat.two_pow_pos _
  · split
    · exact Nat.mod_lt _ (Nat.two_pow_pos _)
    · exact Nat.two_pow_pos _

theorem shlLimbs_length (w n : Nat) (l : List Nat) (sh : Nat) : (shlLimbs w n l sh).length = n := by
  unfold shlLimbs; split <;> simp

theorem shrLimbs_length (w n : Nat) (l : List Nat) (sh : Nat) : (shrLimbs w n l sh).length = n := by
  unfold shrLimbs; split <;> simp

theorem shlLimbs_lt (w n : Nat) {l : List Nat} (hl : ∀ x ∈ l, x < 2 ^ w) (sh : Nat) :
    ∀ x ∈ shlLimbs w n l sh, x < 2 ^ w := by
  unfold shlLimbs
  split
  · intro x hx; rw [List.eq_of_mem_replicate hx]; exact Nat.two_pow_pos _
  · intro x hx
    obtain ⟨i, -, rfl⟩ := List.mem_map.mp hx
    exact shlLimb_lt w hl _ _ _

theorem shrLimbs_lt (w n : Nat) {l : List Nat} (hl : ∀ x ∈ l, x < 2 ^ w) (sh : Nat) :
    ∀ x ∈ shrLimbs w n l sh, x < 2 ^ w := by
  unfold shrLimbs
  split
  · intro x hx; rw [List.eq_of_mem_replicate hx]; exact Nat.two_pow_pos _
  · intro x hx
    obtain ⟨i, -, rfl⟩ := List.mem_map.mp hx
    exact shrLimb_lt w n hl _ _ _

/-- A limb below 2^w has no bit from w on. -/
theorem getD_testBit_ge {w : Nat} {l : List Nat} (hl : ∀ x ∈ l, x < 2 ^ w) (i : Nat) {t : Nat} (ht : w ≤ t) :
    (l.getD i 0).testBit t = false :=
  Nat.testBit_lt_two_pow (Nat.lt_of_lt_of_le (getD_lt (Nat.two_pow_pos _) hl i) (Nat.pow_le_pow_right (by omega) ht))

/-- The bits of a left-shifted limb (45_bitwise.md R213). -/
theorem shlLimb_testBit {w : Nat} {l : List Nat} (hl : ∀ x ∈ l, x < 2 ^ w) {k s i t : Nat} (hs : s < w) (ht : t < w) :
    (shlLimb w l k s i).testBit t
      = if s ≤ t then decide (k ≤ i) && (l.getD (i - k) 0).testBit (t - s)
        else decide (k + 1 ≤ i) && (l.getD (i - k - 1) 0).testBit (t + w - s) := by
  unfold shlLimb
  rw [Nat.testBit_or]
  by_cases hst : s ≤ t
  · have e : (if 0 < s ∧ k + 1 ≤ i then l.getD (i - k - 1) 0 / 2 ^ (w - s) else 0).testBit t = false := by
      split
      · rw [Nat.testBit_div_two_pow]; exact getD_testBit_ge hl _ (by omega)
      · simp
    simp only [e, hst, if_true, Bool.or_false]
    split
    · rename_i h
      simp [Nat.testBit_mod_two_pow, Nat.testBit_mul_two_pow, ht, hst, h]
    · rename_i h; simp [h]
  · have e : (if k ≤ i then l.getD (i - k) 0 * 2 ^ s % 2 ^ w else 0).testBit t = false := by
      split <;> simp [Nat.testBit_mod_two_pow, Nat.testBit_mul_two_pow, hst]
    simp only [e, hst, if_false, Bool.false_or]
    have : 0 < s := by omega
    split
    · rename_i h
      rw [Nat.testBit_div_two_pow, show t + (w - s) = t + w - s by omega]
      simp [h.2]
    · rename_i h
      have : ¬ k + 1 ≤ i := by omega
      simp [this]

/-- A left shift is multiplication mod 2^TB (45_bitwise.md R213). -/
theorem shlLimbs_val {w n : Nat} (hw : 0 < w) {l : List Nat} (hl : ∀ x ∈ l, x < 2 ^ w) (sh : Nat) :
    val (2 ^ w) (shlLimbs w n l sh) = val (2 ^ w) l * 2 ^ sh % 2 ^ (n * w) := by
  apply Nat.eq_of_testBit_eq
  intro j
  rw [val_testBit _ (shlLimbs_lt w n hl sh) hw, Nat.testBit_mod_two_pow, Nat.testBit_mul_two_pow, val_testBit _ hl hw]
  unfold shlLimbs
  split
  · rename_i h
    by_cases hj : j < n * w
    · have : ¬ sh ≤ j := by omega
      simp [this]
    · simp [hj]
  · rename_i h
    rw [map_range_getD]
    have hjw := Nat.div_lt_iff_lt_mul hw (x := j) (y := n)
    by_cases hj : j < n * w
    · have hi : j / w < n := hjw.mpr hj
      rw [if_pos hi, shlLimb_testBit hl (Nat.mod_lt _ hw) (Nat.mod_lt _ hw)]
      have dj := Nat.mod_add_div j w
      have ds := Nat.mod_add_div sh w
      have hjm := Nat.mod_lt j hw
      have hsm := Nat.mod_lt sh hw
      simp only [hj, decide_true, Bool.true_and]
      by_cases hst : sh % w ≤ j % w
      · rw [if_pos hst]
        by_cases hk : sh / w ≤ j / w
        · have hle : sh ≤ j := by
            have := Nat.mul_le_mul_left w hk
            omega
          have e : j - sh = (j % w - sh % w) + w * (j / w - sh / w) := by
            rw [Nat.mul_sub]
            have := Nat.mul_le_mul_left w hk
            omega
          obtain ⟨q1, q2⟩ := div_mod_of_digit (w := w) (a := j % w - sh % w) (by omega) (j / w - sh / w)
          rw [e, q1, q2]
          simp [hk, hle]
        · have hlt : ¬ sh ≤ j := by
            have := Nat.mul_le_mul_left w (show j / w + 1 ≤ sh / w by omega)
            rw [Nat.mul_succ] at this
            omega
          simp [hk, hlt]
      · rw [if_neg hst]
        by_cases hk : sh / w + 1 ≤ j / w
        · have hle : sh ≤ j := by
            have := Nat.mul_le_mul_left w hk
            rw [Nat.mul_succ] at this
            omega
          have e : j - sh = (j % w + w - sh % w) + w * (j / w - sh / w - 1) := by
            have h1 := Nat.mul_le_mul_left w hk
            rw [Nat.mul_succ] at h1
            rw [Nat.mul_sub, Nat.mul_sub, Nat.mul_one]
            omega
          obtain ⟨q1, q2⟩ := div_mod_of_digit (w := w) (a := j % w + w - sh % w) (by omega) (j / w - sh / w - 1)
          rw [e, q1, q2]
          simp [hk, hle]
        · have hlt : ¬ sh ≤ j := by
            have := Nat.mul_le_mul_left w (show j / w ≤ sh / w by omega)
            omega
          simp [hk, hlt]
    · have hi : ¬ j / w < n := fun h => hj (hjw.mp h)
      simp [hi, hj]

/-- The bits of a right-shifted limb (45_bitwise.md R214). -/
theorem shrLimb_testBit {w n : Nat} {l : List Nat} (hlen : l.length = n) (hl : ∀ x ∈ l, x < 2 ^ w) {k s i t : Nat}
    (hs : s < w) (ht : t < w) :
    (shrLimb w n l k s i).testBit t
      = if t + s < w then (l.getD (i + k) 0).testBit (t + s) else (l.getD (i + k + 1) 0).testBit (t + s - w) := by
  have out : ∀ j, ¬ j < n → l.getD j 0 = 0 := fun j h => List.getD_eq_default _ _ (by omega)
  unfold shrLimb
  rw [Nat.testBit_or]
  by_cases hst : t + s < w
  · have e : (if 0 < s ∧ i + k + 1 < n then l.getD (i + k + 1) 0 * 2 ^ (w - s) % 2 ^ w else 0).testBit t = false := by
      split
      · have : ¬ w - s ≤ t := by omega
        simp [Nat.testBit_mod_two_pow, Nat.testBit_mul_two_pow, this]
      · simp
    simp only [e, hst, if_true, Bool.or_false]
    split
    · rw [Nat.testBit_div_two_pow]
    · rename_i h; rw [out _ h]; simp
  · have e : (if i + k < n then l.getD (i + k) 0 / 2 ^ s else 0).testBit t = false := by
      split
      · rw [Nat.testBit_div_two_pow]; exact getD_testBit_ge hl _ (by omega)
      · simp
    simp only [e, hst, if_false, Bool.false_or]
    have : 0 < s := by omega
    split
    · have h1 : w - s ≤ t := by omega
      simp [Nat.testBit_mod_two_pow, Nat.testBit_mul_two_pow, ht, h1, show t - (w - s) = t + s - w by omega]
    · rename_i h
      rw [out (i + k + 1) (by omega)]; simp

/-- A right shift is division by 2^n (45_bitwise.md R214). -/
theorem shrLimbs_val {w n : Nat} (hw : 0 < w) {l : List Nat} (hlen : l.length = n) (hl : ∀ x ∈ l, x < 2 ^ w) (sh : Nat) :
    val (2 ^ w) (shrLimbs w n l sh) = val (2 ^ w) l / 2 ^ sh := by
  have out : ∀ j, ¬ j < n → l.getD j 0 = 0 := fun j h => List.getD_eq_default _ _ (by omega)
  apply Nat.eq_of_testBit_eq
  intro j
  rw [val_testBit _ (shrLimbs_lt w n hl sh) hw, Nat.testBit_div_two_pow, val_testBit _ hl hw]
  unfold shrLimbs
  have dj := Nat.mod_add_div j w
  have ds := Nat.mod_add_div sh w
  have hjm := Nat.mod_lt j hw
  have hsm := Nat.mod_lt sh hw
  split
  · rename_i h
    have : ¬ (j + sh) / w < n := by
      rw [Nat.div_lt_iff_lt_mul hw]; omega
    rw [out _ this]; simp
  · rw [map_range_getD]
    by_cases hi : j / w < n
    · rw [if_pos hi, shrLimb_testBit hlen hl (Nat.mod_lt _ hw) (Nat.mod_lt _ hw)]
      by_cases hst : j % w + sh % w < w
      · have e : j + sh = (j % w + sh % w) + w * (j / w + sh / w) := by rw [Nat.mul_add]; omega
        obtain ⟨q1, q2⟩ := div_mod_of_digit hst (j / w + sh / w)
        rw [if_pos hst, e, q1, q2]
      · have e : j + sh = (j % w + sh % w - w) + w * (j / w + sh / w + 1) := by
          rw [Nat.mul_add, Nat.mul_add]; omega
        obtain ⟨q1, q2⟩ := div_mod_of_digit (w := w) (a := j % w + sh % w - w) (by omega) (j / w + sh / w + 1)
        rw [if_neg hst, e, q1, q2]
    · have : ¬ (j + sh) / w < n := fun h => hi (Nat.lt_of_le_of_lt (Nat.div_le_div_right (by omega)) h)
      rw [if_neg hi, out _ this]
      simp

end Sys2Proof.Machine
end

