-- ==== Sys2Proof/Laws/State.lean ====
section
/-!
SUPPORT. What each update of the state does to each field, one lemma a field, true by definition, and how registers
are read after a register write.
-/

namespace Sys2Proof.Machine

variable (s : State)

/-! ## setReg -/

@[simp] theorem State.setReg_cfg (r : Reg) (x : List Nat) : (s.setReg r x).cfg = s.cfg := rfl
@[simp] theorem State.setReg_v (r : Reg) (x : List Nat) : (s.setReg r x).v = s.v.set r.val x r.isLt := rfl
@[simp] theorem State.setReg_cmd (r : Reg) (x : List Nat) : (s.setReg r x).cmd = s.cmd := rfl
@[simp] theorem State.setReg_arg (r : Reg) (x : List Nat) : (s.setReg r x).arg = s.arg := rfl
@[simp] theorem State.setReg_result (r : Reg) (x : List Nat) : (s.setReg r x).result = s.result := rfl
@[simp] theorem State.setReg_busy (r : Reg) (x : List Nat) : (s.setReg r x).busy = s.busy := rfl
@[simp] theorem State.setReg_ovf (r : Reg) (x : List Nat) : (s.setReg r x).ovf = s.ovf := rfl
@[simp] theorem State.setReg_cond (r : Reg) (x : List Nat) : (s.setReg r x).cond = s.cond := rfl
@[simp] theorem State.setReg_rel (r : Reg) (x : List Nat) : (s.setReg r x).rel = s.rel := rfl
@[simp] theorem State.setReg_fault (r : Reg) (x : List Nat) : (s.setReg r x).fault = s.fault := rfl
@[simp] theorem State.setReg_cause (r : Reg) (x : List Nat) : (s.setReg r x).cause = s.cause := rfl
@[simp] theorem State.setReg_pend (r : Reg) (x : List Nat) : (s.setReg r x).pend = s.pend := rfl
@[simp] theorem State.setReg_turns (r : Reg) (x : List Nat) : (s.setReg r x).turns = s.turns := rfl
@[simp] theorem State.setReg_readData (r : Reg) (x : List Nat) : (s.setReg r x).readData = s.readData := rfl
@[simp] theorem State.setReg_freeCount (r : Reg) (x : List Nat) : (s.setReg r x).freeCount = s.freeCount := rfl

/-! ## setResult -/

@[simp] theorem State.setResult_cfg (x : Native) : (s.setResult x).cfg = s.cfg := rfl
@[simp] theorem State.setResult_v (x : Native) : (s.setResult x).v = s.v := rfl
@[simp] theorem State.setResult_cmd (x : Native) : (s.setResult x).cmd = s.cmd := rfl
@[simp] theorem State.setResult_arg (x : Native) : (s.setResult x).arg = s.arg := rfl
@[simp] theorem State.setResult_result (x : Native) : (s.setResult x).result = x := rfl
@[simp] theorem State.setResult_busy (x : Native) : (s.setResult x).busy = s.busy := rfl
@[simp] theorem State.setResult_ovf (x : Native) : (s.setResult x).ovf = s.ovf := rfl
@[simp] theorem State.setResult_cond (x : Native) : (s.setResult x).cond = s.cond := rfl
@[simp] theorem State.setResult_rel (x : Native) : (s.setResult x).rel = s.rel := rfl
@[simp] theorem State.setResult_fault (x : Native) : (s.setResult x).fault = s.fault := rfl
@[simp] theorem State.setResult_cause (x : Native) : (s.setResult x).cause = s.cause := rfl
@[simp] theorem State.setResult_pend (x : Native) : (s.setResult x).pend = s.pend := rfl
@[simp] theorem State.setResult_turns (x : Native) : (s.setResult x).turns = s.turns := rfl
@[simp] theorem State.setResult_readData (x : Native) : (s.setResult x).readData = s.readData := rfl
@[simp] theorem State.setResult_freeCount (x : Native) : (s.setResult x).freeCount = s.freeCount := rfl
@[simp] theorem State.setResult_reg (x : Native) (q : Reg) : (s.setResult x).reg q = s.reg q := rfl
@[simp] theorem State.setResult_value (x : Native) (q : Reg) : (s.setResult x).value q = s.value q := rfl

/-! ## complete -/

@[simp] theorem State.complete_cfg (p : Response) : (s.complete p).cfg = s.cfg := rfl
@[simp] theorem State.complete_v (p : Response) : (s.complete p).v = s.v := rfl
@[simp] theorem State.complete_cmd (p : Response) : (s.complete p).cmd = s.cmd := rfl
@[simp] theorem State.complete_arg (p : Response) : (s.complete p).arg = s.arg := rfl
@[simp] theorem State.complete_result (p : Response) : (s.complete p).result = s.result := rfl
@[simp] theorem State.complete_busy (p : Response) : (s.complete p).busy = false := rfl
@[simp] theorem State.complete_ovf (p : Response) : (s.complete p).ovf = p.ovf := rfl
@[simp] theorem State.complete_cond (p : Response) : (s.complete p).cond = p.cond := rfl
@[simp] theorem State.complete_rel (p : Response) : (s.complete p).rel = p.rel := rfl
@[simp] theorem State.complete_fault (p : Response) : (s.complete p).fault = s.fault := rfl
@[simp] theorem State.complete_cause (p : Response) : (s.complete p).cause = s.cause := rfl
@[simp] theorem State.complete_pend (p : Response) : (s.complete p).pend = .none := rfl
@[simp] theorem State.complete_turns (p : Response) : (s.complete p).turns = s.turns := rfl
@[simp] theorem State.complete_readData (p : Response) : (s.complete p).readData = s.readData := rfl
@[simp] theorem State.complete_freeCount (p : Response) : (s.complete p).freeCount = s.freeCount := rfl
@[simp] theorem State.complete_reg (p : Response) (q : Reg) : (s.complete p).reg q = s.reg q := rfl
@[simp] theorem State.complete_value (p : Response) (q : Reg) : (s.complete p).value q = s.value q := rfl

/-! ## raise -/

@[simp] theorem State.raise_cfg (c : Cause) : (s.raise c).cfg = s.cfg := rfl
@[simp] theorem State.raise_v (c : Cause) : (s.raise c).v = s.v := rfl
@[simp] theorem State.raise_cmd (c : Cause) : (s.raise c).cmd = s.cmd := rfl
@[simp] theorem State.raise_arg (c : Cause) : (s.raise c).arg = s.arg := rfl
@[simp] theorem State.raise_result (c : Cause) : (s.raise c).result = s.result := rfl
@[simp] theorem State.raise_busy (c : Cause) : (s.raise c).busy = false := rfl
@[simp] theorem State.raise_ovf (c : Cause) : (s.raise c).ovf = s.ovf := rfl
@[simp] theorem State.raise_cond (c : Cause) : (s.raise c).cond = s.cond := rfl
@[simp] theorem State.raise_rel (c : Cause) : (s.raise c).rel = s.rel := rfl
@[simp] theorem State.raise_fault (c : Cause) : (s.raise c).fault = true := rfl
@[simp] theorem State.raise_cause (c : Cause) : (s.raise c).cause = c := rfl
@[simp] theorem State.raise_pend (c : Cause) : (s.raise c).pend = .none := rfl
@[simp] theorem State.raise_turns (c : Cause) : (s.raise c).turns = s.turns := rfl
@[simp] theorem State.raise_readData (c : Cause) : (s.raise c).readData = s.readData := rfl
@[simp] theorem State.raise_freeCount (c : Cause) : (s.raise c).freeCount = s.freeCount := rfl
@[simp] theorem State.raise_reg (c : Cause) (q : Reg) : (s.raise c).reg q = s.reg q := rfl
@[simp] theorem State.raise_value (c : Cause) (q : Reg) : (s.raise c).value q = s.value q := rfl

/-! ## endInit -/

@[simp] theorem State.endInit_cfg : (s.endInit).cfg = s.cfg := rfl
@[simp] theorem State.endInit_v : (s.endInit).v = s.v := rfl
@[simp] theorem State.endInit_cmd : (s.endInit).cmd = s.cmd := rfl
@[simp] theorem State.endInit_arg : (s.endInit).arg = s.arg := rfl
@[simp] theorem State.endInit_result : (s.endInit).result = s.result := rfl
@[simp] theorem State.endInit_busy : (s.endInit).busy = false := rfl
@[simp] theorem State.endInit_ovf : (s.endInit).ovf = s.ovf := rfl
@[simp] theorem State.endInit_cond : (s.endInit).cond = s.cond := rfl
@[simp] theorem State.endInit_rel : (s.endInit).rel = s.rel := rfl
@[simp] theorem State.endInit_fault : (s.endInit).fault = s.fault := rfl
@[simp] theorem State.endInit_cause : (s.endInit).cause = s.cause := rfl
@[simp] theorem State.endInit_pend : (s.endInit).pend = .none := rfl
@[simp] theorem State.endInit_turns : (s.endInit).turns = s.turns := rfl
@[simp] theorem State.endInit_readData : (s.endInit).readData = s.readData := rfl
@[simp] theorem State.endInit_freeCount : (s.endInit).freeCount = s.freeCount := rfl
@[simp] theorem State.endInit_reg (q : Reg) : (s.endInit).reg q = s.reg q := rfl
@[simp] theorem State.endInit_value (q : Reg) : (s.endInit).value q = s.value q := rfl

/-! ## accept -/

@[simp] theorem State.accept_cfg (w : CmdWord) : (s.accept w).cfg = s.cfg := rfl
@[simp] theorem State.accept_v (w : CmdWord) : (s.accept w).v = s.v := rfl
@[simp] theorem State.accept_cmd (w : CmdWord) : (s.accept w).cmd = w := rfl
@[simp] theorem State.accept_arg (w : CmdWord) : (s.accept w).arg = s.arg := rfl
@[simp] theorem State.accept_result (w : CmdWord) : (s.accept w).result = s.result := rfl
@[simp] theorem State.accept_busy (w : CmdWord) : (s.accept w).busy = true := rfl
@[simp] theorem State.accept_ovf (w : CmdWord) : (s.accept w).ovf = s.ovf := rfl
@[simp] theorem State.accept_cond (w : CmdWord) : (s.accept w).cond = s.cond := rfl
@[simp] theorem State.accept_rel (w : CmdWord) : (s.accept w).rel = s.rel := rfl
@[simp] theorem State.accept_fault (w : CmdWord) : (s.accept w).fault = s.fault := rfl
@[simp] theorem State.accept_cause (w : CmdWord) : (s.accept w).cause = s.cause := rfl
@[simp] theorem State.accept_pend (w : CmdWord) : (s.accept w).pend = .command w := rfl
@[simp] theorem State.accept_turns (w : CmdWord) : (s.accept w).turns = s.turns := rfl
@[simp] theorem State.accept_readData (w : CmdWord) : (s.accept w).readData = s.readData := rfl
@[simp] theorem State.accept_freeCount (w : CmdWord) : (s.accept w).freeCount = s.freeCount := rfl
@[simp] theorem State.accept_reg (w : CmdWord) (q : Reg) : (s.accept w).reg q = s.reg q := rfl
@[simp] theorem State.accept_value (w : CmdWord) (q : Reg) : (s.accept w).value q = s.value q := rfl

/-! ## setArg -/

@[simp] theorem State.setArg_cfg (x : Native) : (s.setArg x).cfg = s.cfg := rfl
@[simp] theorem State.setArg_v (x : Native) : (s.setArg x).v = s.v := rfl
@[simp] theorem State.setArg_cmd (x : Native) : (s.setArg x).cmd = s.cmd := rfl
@[simp] theorem State.setArg_arg (x : Native) : (s.setArg x).arg = x := rfl
@[simp] theorem State.setArg_result (x : Native) : (s.setArg x).result = s.result := rfl
@[simp] theorem State.setArg_busy (x : Native) : (s.setArg x).busy = s.busy := rfl
@[simp] theorem State.setArg_ovf (x : Native) : (s.setArg x).ovf = s.ovf := rfl
@[simp] theorem State.setArg_cond (x : Native) : (s.setArg x).cond = s.cond := rfl
@[simp] theorem State.setArg_rel (x : Native) : (s.setArg x).rel = s.rel := rfl
@[simp] theorem State.setArg_fault (x : Native) : (s.setArg x).fault = s.fault := rfl
@[simp] theorem State.setArg_cause (x : Native) : (s.setArg x).cause = s.cause := rfl
@[simp] theorem State.setArg_pend (x : Native) : (s.setArg x).pend = s.pend := rfl
@[simp] theorem State.setArg_turns (x : Native) : (s.setArg x).turns = s.turns := rfl
@[simp] theorem State.setArg_readData (x : Native) : (s.setArg x).readData = s.readData := rfl
@[simp] theorem State.setArg_freeCount (x : Native) : (s.setArg x).freeCount = s.freeCount := rfl
@[simp] theorem State.setArg_reg (x : Native) (q : Reg) : (s.setArg x).reg q = s.reg q := rfl
@[simp] theorem State.setArg_value (x : Native) (q : Reg) : (s.setArg x).value q = s.value q := rfl

/-! ## deliver -/

@[simp] theorem State.deliver_cfg (x : Native) : (s.deliver x).cfg = s.cfg := rfl
@[simp] theorem State.deliver_v (x : Native) : (s.deliver x).v = s.v := rfl
@[simp] theorem State.deliver_cmd (x : Native) : (s.deliver x).cmd = s.cmd := rfl
@[simp] theorem State.deliver_arg (x : Native) : (s.deliver x).arg = s.arg := rfl
@[simp] theorem State.deliver_result (x : Native) : (s.deliver x).result = s.result := rfl
@[simp] theorem State.deliver_busy (x : Native) : (s.deliver x).busy = s.busy := rfl
@[simp] theorem State.deliver_ovf (x : Native) : (s.deliver x).ovf = s.ovf := rfl
@[simp] theorem State.deliver_cond (x : Native) : (s.deliver x).cond = s.cond := rfl
@[simp] theorem State.deliver_rel (x : Native) : (s.deliver x).rel = s.rel := rfl
@[simp] theorem State.deliver_fault (x : Native) : (s.deliver x).fault = s.fault := rfl
@[simp] theorem State.deliver_cause (x : Native) : (s.deliver x).cause = s.cause := rfl
@[simp] theorem State.deliver_pend (x : Native) : (s.deliver x).pend = s.pend := rfl
@[simp] theorem State.deliver_turns (x : Native) : (s.deliver x).turns = s.turns := rfl
@[simp] theorem State.deliver_readData (x : Native) : (s.deliver x).readData = some x := rfl
@[simp] theorem State.deliver_freeCount (x : Native) : (s.deliver x).freeCount = s.freeCount := rfl
@[simp] theorem State.deliver_reg (x : Native) (q : Reg) : (s.deliver x).reg q = s.reg q := rfl
@[simp] theorem State.deliver_value (x : Native) (q : Reg) : (s.deliver x).value q = s.value q := rfl

/-! ## deliverFree -/

@[simp] theorem State.deliverFree_cfg : (s.deliverFree).cfg = s.cfg := rfl
@[simp] theorem State.deliverFree_v : (s.deliverFree).v = s.v := rfl
@[simp] theorem State.deliverFree_cmd : (s.deliverFree).cmd = s.cmd := rfl
@[simp] theorem State.deliverFree_arg : (s.deliverFree).arg = s.arg := rfl
@[simp] theorem State.deliverFree_result : (s.deliverFree).result = s.result := rfl
@[simp] theorem State.deliverFree_busy : (s.deliverFree).busy = s.busy := rfl
@[simp] theorem State.deliverFree_ovf : (s.deliverFree).ovf = s.ovf := rfl
@[simp] theorem State.deliverFree_cond : (s.deliverFree).cond = s.cond := rfl
@[simp] theorem State.deliverFree_rel : (s.deliverFree).rel = s.rel := rfl
@[simp] theorem State.deliverFree_fault : (s.deliverFree).fault = s.fault := rfl
@[simp] theorem State.deliverFree_cause : (s.deliverFree).cause = s.cause := rfl
@[simp] theorem State.deliverFree_pend : (s.deliverFree).pend = s.pend := rfl
@[simp] theorem State.deliverFree_turns : (s.deliverFree).turns = s.turns := rfl
@[simp] theorem State.deliverFree_readData : (s.deliverFree).readData = some (Config.freeData s.freeCount) := rfl
@[simp] theorem State.deliverFree_freeCount : (s.deliverFree).freeCount = s.freeCount + 1 := rfl
@[simp] theorem State.deliverFree_reg (q : Reg) : (s.deliverFree).reg q = s.reg q := rfl
@[simp] theorem State.deliverFree_value (q : Reg) : (s.deliverFree).value q = s.value q := rfl

/-! ## setTurns -/

@[simp] theorem State.setTurns_cfg (ts : List Turn) : (s.setTurns ts).cfg = s.cfg := rfl
@[simp] theorem State.setTurns_v (ts : List Turn) : (s.setTurns ts).v = s.v := rfl
@[simp] theorem State.setTurns_cmd (ts : List Turn) : (s.setTurns ts).cmd = s.cmd := rfl
@[simp] theorem State.setTurns_arg (ts : List Turn) : (s.setTurns ts).arg = s.arg := rfl
@[simp] theorem State.setTurns_result (ts : List Turn) : (s.setTurns ts).result = s.result := rfl
@[simp] theorem State.setTurns_busy (ts : List Turn) : (s.setTurns ts).busy = s.busy := rfl
@[simp] theorem State.setTurns_ovf (ts : List Turn) : (s.setTurns ts).ovf = s.ovf := rfl
@[simp] theorem State.setTurns_cond (ts : List Turn) : (s.setTurns ts).cond = s.cond := rfl
@[simp] theorem State.setTurns_rel (ts : List Turn) : (s.setTurns ts).rel = s.rel := rfl
@[simp] theorem State.setTurns_fault (ts : List Turn) : (s.setTurns ts).fault = s.fault := rfl
@[simp] theorem State.setTurns_cause (ts : List Turn) : (s.setTurns ts).cause = s.cause := rfl
@[simp] theorem State.setTurns_pend (ts : List Turn) : (s.setTurns ts).pend = s.pend := rfl
@[simp] theorem State.setTurns_turns (ts : List Turn) : (s.setTurns ts).turns = ts := rfl
@[simp] theorem State.setTurns_readData (ts : List Turn) : (s.setTurns ts).readData = s.readData := rfl
@[simp] theorem State.setTurns_freeCount (ts : List Turn) : (s.setTurns ts).freeCount = s.freeCount := rfl
@[simp] theorem State.setTurns_reg (ts : List Turn) (q : Reg) : (s.setTurns ts).reg q = s.reg q := rfl
@[simp] theorem State.setTurns_value (ts : List Turn) (q : Reg) : (s.setTurns ts).value q = s.value q := rfl

/-! ## Reading a register after a write -/

/-- A register reads what was last written to it; every other register is as before (10_state.md R20, R22). -/
theorem State.setReg_reg (r : Reg) (x : List Nat) (q : Reg) :
    (s.setReg r x).reg q = if q = r then x else s.reg q := by
  by_cases h : q = r
  · subst h; simp [State.reg, State.setReg, Vector.get_eq_getElem]
  · have : r.val ≠ q.val := fun e => h (Fin.ext e.symm)
    simp [State.reg, State.setReg, Vector.get_eq_getElem, this, h]

@[simp] theorem State.setReg_reg_self (r : Reg) (x : List Nat) : (s.setReg r x).reg r = x := by
  simp [State.setReg_reg]

theorem State.setReg_reg_ne (r : Reg) (x : List Nat) {q : Reg} (h : q ≠ r) : (s.setReg r x).reg q = s.reg q := by
  simp [State.setReg_reg, h]

@[simp] theorem State.setReg_value_self (r : Reg) (x : List Nat) : (s.setReg r x).value r = val s.cfg.base x := by
  simp [State.value]

theorem State.setReg_value_ne (r : Reg) (x : List Nat) {q : Reg} (h : q ≠ r) :
    (s.setReg r x).value q = s.value q := by
  simp [State.value, State.setReg_reg_ne _ _ _ h]

/-- Every register of the reset state holds N zero limbs (10_state.md R41). -/
@[simp] theorem State.resetOf_reg (c : Config) (q : Reg) : (State.resetOf c).reg q = List.replicate c.N 0 := by
  simp [State.reg, State.resetOf, Vector.get_eq_getElem]

/-- Two states with equal registers have equal register files. -/
theorem State.v_ext {a b : State} (h : ∀ r : Reg, a.reg r = b.reg r) : a.v = b.v := by
  apply Vector.ext
  intro i hi
  simpa [State.reg, Vector.get_eq_getElem] using h ⟨i, hi⟩

end Sys2Proof.Machine
end

