-- ==== Sys2Proof/Laws/Ops.lean ====
section
/-!
SUPPORT. What each shared operation can do, said once: completion, fault entry, abandonment, host accesses, and the
two shapes every command's outcome has.
-/

namespace Sys2Proof.Machine

/-! ## The limb invariant under the updates -/

theorem limbsOk_of_same {s t : State} (hc : t.cfg = s.cfg) (hv : ∀ r : Reg, t.reg r = s.reg r) (h : s.LimbsOk) :
    t.LimbsOk := by
  intro r
  rw [hc, hv r]
  exact h r

theorem limbsOk_setReg {s : State} (h : s.LimbsOk) (r : Reg) {x : List Nat} (hlen : x.length = s.cfg.N)
    (hx : ∀ y ∈ x, y < s.cfg.base) : (s.setReg r x).LimbsOk := by
  intro q
  rw [State.setReg_reg, State.setReg_cfg]
  split
  · exact ⟨hlen, hx⟩
  · exact h q

theorem limbsOk_resetOf (c : Config) : (State.resetOf c).LimbsOk := by
  intro r
  rw [State.resetOf_reg]
  refine ⟨by simp [State.resetOf], fun x hx => ?_⟩
  rw [List.eq_of_mem_replicate hx]
  exact c.base_pos

/-- Any number below BASE^N written in full is a legal register (00_scope.md R12). -/
theorem encode_ok (s : State) (x : Nat) :
    (s.encode x).length = s.cfg.N ∧ (∀ y ∈ s.encode x, y < s.cfg.base) ∧ val s.cfg.base (s.encode x) = x % s.cfg.modulus :=
  ⟨enc_length _ _, enc_lt s.cfg.base_pos _ _, val_enc _ _⟩

theorem value_lt {s : State} (h : s.LimbsOk) (r : Reg) : s.value r < s.cfg.modulus := by
  have := val_lt (h r).2
  rwa [(h r).1] at this

theorem freeReg_ok (c : Config) (count : Nat) (r : Reg) :
    (freeReg c count r).length = c.N ∧ ∀ y ∈ freeReg c count r, y < c.base := by
  refine ⟨by simp [freeReg], fun y hy => ?_⟩
  obtain ⟨i, -, rfl⟩ := List.mem_map.mp hy
  exact Nat.mod_lt _ c.base_pos

/-! ## Fault entry and completion -/

/-- `raise` is the fault entry (60_exceptions.md R271). -/
theorem raise_faulted (s : State) (c : Cause) : s.Faulted (s.raise c) c := by constructor <;> intros <;> rfl

/-- A command with no destination completes. -/
theorem complete_completed {s : State} (h : s.LimbsOk) (p : Response) : s.Completed (s.complete p) [] p where
  ovf := rfl
  cond := rfl
  rel := rfl
  notBusy := rfl
  limbs := h
  regs := fun _ _ => rfl
  rest := ⟨rfl, rfl, rfl, rfl, rfl, rfl, rfl, rfl⟩

/-- A command that writes RESULT completes. -/
theorem setResult_completed {s : State} (h : s.LimbsOk) (x : Native) (p : Response) :
    s.Completed ((s.setResult x).complete p) [] p where
  ovf := rfl
  cond := rfl
  rel := rfl
  notBusy := rfl
  limbs := h
  regs := fun _ _ => rfl
  rest := ⟨rfl, rfl, rfl, rfl, rfl, rfl, rfl, rfl⟩

/-- A command that writes one register completes. -/
theorem setReg_completed {s : State} (h : s.LimbsOk) (r : Reg) {x : List Nat} (hlen : x.length = s.cfg.N)
    (hx : ∀ y ∈ x, y < s.cfg.base) (p : Response) : s.Completed ((s.setReg r x).complete p) [r] p where
  ovf := rfl
  cond := rfl
  rel := rfl
  notBusy := rfl
  limbs := limbsOk_of_same rfl (fun _ => rfl) (limbsOk_setReg h r hlen hx)
  regs := fun q hq => State.setReg_reg_ne s r x (by simpa using hq)
  rest := ⟨rfl, rfl, rfl, rfl, rfl, rfl, rfl, rfl⟩

/-! ## The two shapes of a command's outcome -/

/-- What a command may have changed before it completes: its row's registers and RESULT (10_state.md R22). -/
structure State.OutputsOf (s u : State) (i : Instr) : Prop where
  rest : u = { s with v := u.v, result := u.result }
  regs : s.RegsKept u i.dests
  result : i.writesResult = false → u.result = s.result
  limbs : s.LimbsOk → u.LimbsOk

theorem outputsOf_refl (s : State) (i : Instr) : s.OutputsOf s i := ⟨rfl, fun _ _ => rfl, fun _ => rfl, id⟩

theorem outputsOf_setReg (s : State) {i : Instr} {r : Reg} (hr : r ∈ i.dests) {x : List Nat}
    (hx : s.LimbsOk → x.length = s.cfg.N ∧ ∀ y ∈ x, y < s.cfg.base) : s.OutputsOf (s.setReg r x) i where
  rest := rfl
  regs := fun _ hq => State.setReg_reg_ne s r x fun e => hq (e ▸ hr)
  result := fun _ => rfl
  limbs := fun h => limbsOk_setReg h r (hx h).1 (hx h).2

theorem outputsOf_setResult (s : State) {i : Instr} (hi : i.writesResult = true) (x : Native) :
    s.OutputsOf (s.setResult x) i where
  rest := rfl
  regs := fun _ _ => rfl
  result := fun h => by simp [hi] at h
  limbs := fun h => h

/-- A response a command of this opcode may give (30_encoding.md R96). -/
structure Response.MayBe (p : Response) (o : Opcode) : Prop where
  ovf : p.ovf = true → o ∈ [Opcode.add, .sub, .inc, .dec, .mul, .ldn, .ton, .setl]
  cond : p.cond = true → o ∈ [Opcode.eq, .isz]
  rel : p.rel ≠ .none ↔ o = .cmp

/-- Every command either enters the fault state, by an ill-formed operand or a zero divisor, or completes, having changed
at most its row's outputs. -/
theorem exec_shape (i : Instr) (s : State) :
    (∃ c ∈ [Cause.operandConflict, .badLimbIndex, .divideByZero], exec i s = .next (s.raise c))
      ∨ ∃ u p, exec i s = .next (u.complete p) ∧ s.OutputsOf u i ∧ p.MayBe i.opcode := by
  have divided (rs2 : Reg) (t : State) (h : s.OutputsOf t i) (ho : i.opcode ≠ .cmp)
      (e : exec i s = s.divided rs2 t) :
      (∃ c ∈ [Cause.operandConflict, .badLimbIndex, .divideByZero], exec i s = .next (s.raise c))
        ∨ ∃ u p, exec i s = .next (u.complete p) ∧ s.OutputsOf u i ∧ p.MayBe i.opcode := by
    unfold State.divided at e
    split at e
    · exact .inl ⟨_, by simp, e⟩
    · exact .inr ⟨t, _, e, h, by simp [Response.clear], by simp [Response.clear], by simp [Response.clear, ho]⟩
  cases i with
  | nop => exact .inr ⟨_, _, rfl, outputsOf_refl _ _, by constructor <;> simp [Response.clear, Instr.opcode]⟩
  | clr rd =>
    exact .inr ⟨_, _, rfl, outputsOf_setReg s (by simp [Instr.dests]) fun _ => ⟨(encode_ok s _).1, (encode_ok s _).2.1⟩,
      by constructor <;> simp [Response.clear, Instr.opcode]⟩
  | mov rd rs1 =>
    exact .inr ⟨_, _, rfl, outputsOf_setReg s (by simp [Instr.dests]) fun h => h rs1,
      by constructor <;> simp [Response.clear, Instr.opcode]⟩
  | ldn rd =>
    exact .inr ⟨_, _, rfl, outputsOf_setReg s (by simp [Instr.dests]) fun _ => ⟨(encode_ok s _).1, (encode_ok s _).2.1⟩,
      by constructor <;> simp [Response.overflow, Instr.opcode]⟩
  | ton rs1 =>
    exact .inr ⟨_, _, rfl, outputsOf_setResult s rfl _, by constructor <;> simp [Response.overflow, Instr.opcode]⟩
  | setl r idx =>
    by_cases h : s.cfg.N ≤ idx.val
    · exact .inl ⟨.badLimbIndex, by simp, by simp [exec, execSetl, h]⟩
    · refine .inr ⟨_, _, by simp only [exec, execSetl, if_neg h]; rfl,
        outputsOf_setReg s (by simp [Instr.dests]) fun hs => ⟨by simp [(hs r).1], fun y hy => ?_⟩,
        by constructor <;> simp [Response.overflow, Instr.opcode]⟩
      rcases List.mem_or_eq_of_mem_set hy with hy | rfl
      · exact (hs r).2 y hy
      · exact Nat.mod_lt _ s.cfg.base_pos
  | getl r idx =>
    by_cases h : s.cfg.N ≤ idx.val
    · exact .inl ⟨.badLimbIndex, by simp, by simp [exec, execGetl, h]⟩
    · exact .inr ⟨_, _, by simp only [exec, execGetl, if_neg h]; rfl, outputsOf_setResult s rfl _,
        by constructor <;> simp [Response.clear, Instr.opcode]⟩
  | cmp rs1 rs2 =>
    have ordered : ∀ p, scanPairs p ≠ .none := by
      intro p
      induction p with
      | nil => simp [scanPairs]
      | cons a p ih => simp only [scanPairs]; split <;> (try split) <;> simp_all
    exact .inr ⟨_, _, rfl, outputsOf_refl _ _, by simp [Response.relation], by simp [Response.relation],
      by simpa [Response.relation, Instr.opcode, compareLimbs] using ordered _⟩
  | eq rs1 rs2 =>
    exact .inr ⟨_, _, rfl, outputsOf_refl _ _, by constructor <;> simp [Response.predicate, Instr.opcode]⟩
  | isz rs1 =>
    exact .inr ⟨_, _, rfl, outputsOf_refl _ _, by constructor <;> simp [Response.predicate, Instr.opcode]⟩
  | add rd rs1 rs2 =>
    refine .inr ⟨_, _, rfl, outputsOf_setReg s (by simp [Instr.dests]) fun h => ⟨?_, addLimbs_lt s.cfg.base_pos _ _ _⟩,
      by constructor <;> simp [Response.overflow, Instr.opcode]⟩
    rw [addLimbs_length (by rw [(h rs1).1, (h rs2).1]), (h rs1).1]
  | sub rd rs1 rs2 =>
    refine .inr ⟨_, _, rfl, outputsOf_setReg s (by simp [Instr.dests]) fun h => ⟨?_, subLimbs_lt (h rs1).2 _⟩,
      by constructor <;> simp [Response.overflow, Instr.opcode]⟩
    rw [subLimbs_length (by rw [(h rs1).1, (h rs2).1]), (h rs1).1]
  | inc rd rs1 =>
    exact .inr ⟨_, _, rfl, outputsOf_setReg s (by simp [Instr.dests]) fun h =>
      ⟨by rw [incLimbs_length, (h rs1).1], incLimbs_lt s.cfg.base_pos (h rs1).2⟩,
      by constructor <;> simp [Response.overflow, Instr.opcode]⟩
  | dec rd rs1 =>
    exact .inr ⟨_, _, rfl, outputsOf_setReg s (by simp [Instr.dests]) fun h =>
      ⟨by rw [decLimbs_length, (h rs1).1], decLimbs_lt s.cfg.base_pos (h rs1).2⟩,
      by constructor <;> simp [Response.overflow, Instr.opcode]⟩
  | mul rd rs1 rs2 =>
    exact .inr ⟨_, _, rfl, outputsOf_setReg s (by simp [Instr.dests]) fun _ => ⟨(encode_ok s _).1, (encode_ok s _).2.1⟩,
      by constructor <;> simp [Response.overflow, Instr.opcode]⟩
  | divmod rd rd2 rs1 rs2 =>
    by_cases h : rd = rd2
    · exact .inl ⟨.operandConflict, by simp, by simp [exec, execDivmod, h]⟩
    · refine divided rs2 _ ?_ (by simp [Instr.opcode]) (by simp only [exec, execDivmod, if_neg h]; rfl)
      have first := outputsOf_setReg s (i := .divmod rd rd2 rs1 rs2) (r := rd) (by simp [Instr.dests])
        fun _ => ⟨(encode_ok s (s.value rs1 / s.value rs2)).1, (encode_ok s _).2.1⟩
      have second := outputsOf_setReg (s.setReg rd (s.encode (s.value rs1 / s.value rs2)))
        (i := .divmod rd rd2 rs1 rs2) (r := rd2) (by simp [Instr.dests])
        fun _ => ⟨(encode_ok s (s.value rs1 % s.value rs2)).1, (encode_ok s _).2.1⟩
      exact ⟨rfl, fun q hq => (second.regs q hq).trans (first.regs q hq), fun _ => rfl,
        fun hs => second.limbs (first.limbs hs)⟩
  | div rd rs1 rs2 =>
    exact divided rs2 _ (outputsOf_setReg s (by simp [Instr.dests]) fun _ => ⟨(encode_ok s _).1, (encode_ok s _).2.1⟩)
      (by simp [Instr.opcode]) rfl
  | mod rd rs1 rs2 =>
    exact divided rs2 _ (outputsOf_setReg s (by simp [Instr.dests]) fun _ => ⟨(encode_ok s _).1, (encode_ok s _).2.1⟩)
      (by simp [Instr.opcode]) rfl
  | and rd rs1 rs2 =>
    exact .inr ⟨_, _, rfl, outputsOf_setReg s (by simp [Instr.dests]) fun h =>
      ⟨by simp [(h rs1).1, (h rs2).1], zipWith_lt (fun _ _ _ hy => Nat.and_lt_two_pow _ hy) (h rs1).2 (h rs2).2⟩,
      by constructor <;> simp [Response.clear, Instr.opcode]⟩
  | or rd rs1 rs2 =>
    exact .inr ⟨_, _, rfl, outputsOf_setReg s (by simp [Instr.dests]) fun h =>
      ⟨by simp [(h rs1).1, (h rs2).1], zipWith_lt (fun _ _ => Nat.or_lt_two_pow) (h rs1).2 (h rs2).2⟩,
      by constructor <;> simp [Response.clear, Instr.opcode]⟩
  | xor rd rs1 rs2 =>
    exact .inr ⟨_, _, rfl, outputsOf_setReg s (by simp [Instr.dests]) fun h =>
      ⟨by simp [(h rs1).1, (h rs2).1], zipWith_lt (fun _ _ => Nat.xor_lt_two_pow) (h rs1).2 (h rs2).2⟩,
      by constructor <;> simp [Response.clear, Instr.opcode]⟩
  | shl rd rs1 =>
    exact .inr ⟨_, _, rfl, outputsOf_setReg s (by simp [Instr.dests]) fun h =>
      ⟨shlLimbs_length _ _ _ _, shlLimbs_lt _ _ (h rs1).2 _⟩, by constructor <;> simp [Response.clear, Instr.opcode]⟩
  | shr rd rs1 =>
    exact .inr ⟨_, _, rfl, outputsOf_setReg s (by simp [Instr.dests]) fun h =>
      ⟨shrLimbs_length _ _ _ _, shrLimbs_lt _ _ (h rs1).2 _⟩, by constructor <;> simp [Response.clear, Instr.opcode]⟩

/-! ## Abandonment and host accesses -/

/-- Forgetting registers changes those registers only, each to a legal one (log 7). -/
theorem forget_spec (ds : List Reg) (s : State) :
    s.forget ds = { s with v := (s.forget ds).v } ∧ s.RegsKept (s.forget ds) ds
      ∧ (s.LimbsOk → (s.forget ds).LimbsOk) := by
  induction ds generalizing s with
  | nil => exact ⟨rfl, fun _ _ => rfl, id⟩
  | cons d ds ih =>
    obtain ⟨e, k, l⟩ := ih (s.setReg d (freeReg s.cfg s.freeCount d))
    refine ⟨?_, fun q hq => ?_, fun h => l (limbsOk_setReg h d (freeReg_ok _ _ _).1 (freeReg_ok _ _ _).2)⟩
    · conv_lhs => rw [State.forget, e]
      rfl
    · simp only [List.mem_cons, not_or] at hq
      exact (k q hq.2).trans (State.setReg_reg_ne _ _ _ hq.1)

/-- Abandoning changes at most the outputs of the pending command, and draws free values (60_exceptions.md R271). -/
theorem abandon_spec (s : State) :
    s.abandon = { s with v := s.abandon.v, result := s.abandon.result, freeCount := s.abandon.freeCount }
      ∧ (s.LimbsOk → s.abandon.LimbsOk)
      ∧ (s.abandon = s ∨ ∃ w i, s.pend = .command w ∧ decode s.cfg.N w = .ok i ∧ s.RegsKept s.abandon i.dests
          ∧ (i.writesResult = false → s.abandon.result = s.result)) := by
  unfold State.abandon
  split
  · exact ⟨rfl, id, .inl rfl⟩
  · exact ⟨rfl, id, .inl rfl⟩
  · rename_i w hp
    split
    · exact ⟨rfl, id, .inl rfl⟩
    · rename_i i hd
      split
      · exact ⟨rfl, id, .inl rfl⟩
      · obtain ⟨e, k, l⟩ := forget_spec i.dests s
        refine ⟨?_, fun h => limbsOk_of_same rfl (fun _ => rfl) (l h), .inr ⟨w, i, hp, hd, k, fun hr => ?_⟩⟩
        · simp only [State.forgetOutputs]
          rw [e]
        · simp [State.forgetOutputs, hr]

/-- Each host access does one of these: nothing, a delivery, an accepted command, an ARG write, or a violation. -/
theorem hostAccess_cases (a : HostAccess) (s : State) :
    hostAccess a s = s ∨ (∃ x, hostAccess a s = s.deliver x) ∨ (hostAccess a s = s.deliverFree ∧ s.fault = true)
      ∨ (∃ w, hostAccess a s = s.accept w ∧ s.busy = false ∧ s.fault = false)
      ∨ (∃ x, hostAccess a s = s.setArg x ∧ s.busy = false ∧ s.fault = false)
      ∨ (hostAccess a s = s.protocolFault ∧ s.fault = false) := by
  cases a with
  | read offset width =>
    simp only [hostAccess, hostRead]
    cases hf : s.fault <;> cases Csr.at offset with
    | none => simp
    | some c =>
      first
        | by_cases h : width = c.width ∧ s.mayRead c <;> simp [h]
          done
        | by_cases h : width = c.width <;> simp [h]
  | write offset width data =>
    simp only [hostAccess, hostWrite]
    cases hf : s.fault
    · cases Csr.at offset with
      | none => simp
      | some c =>
        by_cases h : width = c.width ∧ s.mayWrite c
        · cases c <;> simp_all [State.mayWrite, State.csrWrite]
        · simp [h]
    · simp

end Sys2Proof.Machine
end

