-- ==== Sys2Proof/Laws/PerInstr.lean ====
section
/-!
SUPPORT. Laws made per command. The family EncodedWord says that the encoded word of a command has the command's
opcode in bits 5:0 and 0 in every bit its opcode does not use (30_encoding.md R86).
-/

namespace Sys2Proof.Laws

/-- A format R word as the or of its shifted fields (30_encoding.md R82). -/
theorem formatR_eq_or (o : Opcode) (rd rs1 rs2 rd2 : Reg) :
    formatR o rd rs1 rs2 rd2 = BitVec.ofNat 32 o.code ||| BitVec.ofNat 32 rd.val <<< 6 ||| BitVec.ofNat 32 rs1.val <<< 10
      ||| BitVec.ofNat 32 rs2.val <<< 14 ||| BitVec.ofNat 32 rd2.val <<< 18 := by
  have ho : o.code < 2 ^ 6 := by cases o <;> decide
  have h1 := rd.isLt
  have h2 := rs1.isLt
  have h3 := rs2.isLt
  have h4 := rd2.isLt
  have or_add : ∀ x y k : Nat, x < 2 ^ k → x ||| y * 2 ^ k = x + y * 2 ^ k := fun x y k hx => by
    rw [Nat.or_comm, Nat.mul_comm y, ← Nat.two_pow_add_eq_or_of_lt hx, Nat.add_comm]
  apply BitVec.eq_of_toNat_eq
  simp only [formatR, BitVec.toNat_or, BitVec.toNat_shiftLeft, BitVec.toNat_ofNat, Nat.shiftLeft_eq]
  rw [Nat.mod_eq_of_lt (a := o.code) (by omega), Nat.mod_eq_of_lt (a := rd.val) (by omega),
    Nat.mod_eq_of_lt (a := rs1.val) (by omega), Nat.mod_eq_of_lt (a := rs2.val) (by omega),
    Nat.mod_eq_of_lt (a := rd2.val) (by omega), Nat.mod_eq_of_lt (a := rd.val * _) (by omega),
    Nat.mod_eq_of_lt (a := rs1.val * _) (by omega), Nat.mod_eq_of_lt (a := rs2.val * _) (by omega),
    Nat.mod_eq_of_lt (a := rd2.val * _) (by omega), or_add _ _ 6 ho, or_add _ _ 10 (by omega), or_add _ _ 14 (by omega),
    or_add _ _ 18 (by omega), Nat.mod_eq_of_lt (by omega)]

/-- Masking a format R word masks field by field. -/
theorem formatR_and (o : Opcode) (rd rs1 rs2 rd2 : Reg) (m : CmdWord)
    (h0 : BitVec.ofNat 32 o.code &&& m = BitVec.ofNat 32 o.code)
    (h1 : BitVec.ofNat 32 rd.val <<< 6 &&& m = 0) (h2 : BitVec.ofNat 32 rs1.val <<< 10 &&& m = 0)
    (h3 : BitVec.ofNat 32 rs2.val <<< 14 &&& m = 0) (h4 : BitVec.ofNat 32 rd2.val <<< 18 &&& m = 0) :
    formatR o rd rs1 rs2 rd2 &&& m = o.pattern := by
  have dist : ∀ x y : CmdWord, (x ||| y) &&& m = (x &&& m) ||| (y &&& m) := fun x y => by
    ext i; simp [Bool.and_or_distrib_right]
  rw [formatR_eq_or, dist, dist, dist, dist, h0, h1, h2, h3, h4]
  simp [Opcode.pattern]

/-- Bits 5:0 of a format R word are the opcode (30_encoding.md R82). -/
theorem formatR_code (o : Opcode) (rd rs1 rs2 rd2 : Reg) : field (formatR o rd rs1 rs2 rd2) 0 6 = o.code := by
  have ho : o.code < 2 ^ 6 := by cases o <;> decide
  simp only [field, formatR, BitVec.toNat_ofNat]
  omega

/-- Bits 5:0 of a format L word are the opcode (30_encoding.md R83). -/
theorem formatL_code (o : Opcode) (r : Reg) (idx : LimbIdx) : field (formatL o r idx) 0 6 = o.code := by
  have ho : o.code < 2 ^ 6 := by cases o <;> decide
  simp only [field, formatL, BitVec.toNat_ofNat]
  omega

/-- The mask of format L keeps the opcode and bits 15:10 (30_encoding.md R83). -/
theorem formatL_and (o : Opcode) (r : Reg) (idx : LimbIdx) : formatL o r idx &&& 0x0000FC3F#32 = o.pattern := by
  have ho : o.code < 2 ^ 6 := by cases o <;> decide
  have hr := r.isLt
  have hi := idx.isLt
  have low : ∀ c : Fin 64, ∀ q : Fin 16, (c.val + q.val * 2 ^ 6) &&& 0xFC3F = c.val := by decide +kernel
  apply BitVec.eq_of_toNat_eq
  simp only [formatL, Opcode.pattern, BitVec.toNat_and, BitVec.toNat_ofNat]
  rw [Nat.mod_eq_of_lt (by omega), Nat.mod_eq_of_lt (a := o.code) (by omega), Nat.mod_eq_of_lt (a := 0xFC3F) (by omega)]
  have split : o.code + r.val * 2 ^ 6 + idx.val * 2 ^ 16 &&& 0xFC3F
      = (o.code + r.val * 2 ^ 6 + idx.val * 2 ^ 16) % 2 ^ 16 &&& 0xFC3F := by
    apply Nat.eq_of_testBit_eq
    intro j
    rw [Nat.testBit_and, Nat.testBit_and, Nat.testBit_mod_two_pow]
    by_cases hj : j < 16
    · simp [hj]
    · have : Nat.testBit 0xFC3F j = false :=
        Nat.testBit_lt_two_pow (Nat.lt_of_lt_of_le (by decide : 0xFC3F < 2 ^ 16) (Nat.pow_le_pow_right (by omega) (by omega)))
      simp [this]
  rw [split, Nat.add_mul_mod_self_right, Nat.mod_eq_of_lt (by omega)]
  exact low ⟨o.code, ho⟩ r

end Sys2Proof.Laws

namespace Sys2Proof.Laws.EncodedWord

/-- The encoded word has its opcode in bits 5:0 and matches under its opcode's mask (30_encoding.md R86). -/
def Statement (i : Instr) : Prop :=
  field (encode i) 0 6 = i.opcode.code ∧ encode i &&& i.opcode.mask = i.opcode.pattern

/-- A register field that the mask clears, whatever the register. -/
theorem cleared {k : Nat} {m : CmdWord} (h : ∀ r : Reg, BitVec.ofNat 32 r.val <<< k &&& m = 0) (r : Reg) :
    BitVec.ofNat 32 r.val <<< k &&& m = 0 := h r

theorem nop : Statement .nop :=
  ⟨formatR_code _ _ _ _ _, formatR_and .nop _ _ _ _ (Opcode.mask .nop) (by decide) (by decide) (by decide) (by decide) (by decide)⟩

theorem clr (rd : Reg) : Statement (.clr rd) :=
  ⟨formatR_code _ _ _ _ _, formatR_and .clr _ _ _ _ (Opcode.mask .clr) (by decide) (cleared (by decide) _) (by decide) (by decide) (by decide)⟩

theorem mov (rd rs1 : Reg) : Statement (.mov rd rs1) :=
  ⟨formatR_code _ _ _ _ _, formatR_and .mov _ _ _ _ (Opcode.mask .mov) (by decide) (cleared (by decide) _) (cleared (by decide) _) (by decide) (by decide)⟩

theorem ldn (rd : Reg) : Statement (.ldn rd) :=
  ⟨formatR_code _ _ _ _ _, formatR_and .ldn _ _ _ _ (Opcode.mask .ldn) (by decide) (cleared (by decide) _) (by decide) (by decide) (by decide)⟩

theorem ton (rs1 : Reg) : Statement (.ton rs1) :=
  ⟨formatR_code _ _ _ _ _, formatR_and .ton _ _ _ _ (Opcode.mask .ton) (by decide) (by decide) (cleared (by decide) _) (by decide) (by decide)⟩

theorem setl (r : Reg) (idx : LimbIdx) : Statement (.setl r idx) := ⟨formatL_code _ _ _, formatL_and _ _ _⟩

theorem getl (r : Reg) (idx : LimbIdx) : Statement (.getl r idx) := ⟨formatL_code _ _ _, formatL_and _ _ _⟩

theorem cmp (rs1 rs2 : Reg) : Statement (.cmp rs1 rs2) :=
  ⟨formatR_code _ _ _ _ _, formatR_and .cmp _ _ _ _ (Opcode.mask .cmp) (by decide) (by decide) (cleared (by decide) _) (cleared (by decide) _) (by decide)⟩

theorem eq (rs1 rs2 : Reg) : Statement (.eq rs1 rs2) :=
  ⟨formatR_code _ _ _ _ _, formatR_and .eq _ _ _ _ (Opcode.mask .eq) (by decide) (by decide) (cleared (by decide) _) (cleared (by decide) _) (by decide)⟩

theorem isz (rs1 : Reg) : Statement (.isz rs1) :=
  ⟨formatR_code _ _ _ _ _, formatR_and .isz _ _ _ _ (Opcode.mask .isz) (by decide) (by decide) (cleared (by decide) _) (by decide) (by decide)⟩

theorem add (rd rs1 rs2 : Reg) : Statement (.add rd rs1 rs2) :=
  ⟨formatR_code _ _ _ _ _, formatR_and .add _ _ _ _ (Opcode.mask .add) (by decide) (cleared (by decide) _) (cleared (by decide) _) (cleared (by decide) _) (by decide)⟩

theorem sub (rd rs1 rs2 : Reg) : Statement (.sub rd rs1 rs2) :=
  ⟨formatR_code _ _ _ _ _, formatR_and .sub _ _ _ _ (Opcode.mask .sub) (by decide) (cleared (by decide) _) (cleared (by decide) _) (cleared (by decide) _) (by decide)⟩

theorem inc (rd rs1 : Reg) : Statement (.inc rd rs1) :=
  ⟨formatR_code _ _ _ _ _, formatR_and .inc _ _ _ _ (Opcode.mask .inc) (by decide) (cleared (by decide) _) (cleared (by decide) _) (by decide) (by decide)⟩

theorem dec (rd rs1 : Reg) : Statement (.dec rd rs1) :=
  ⟨formatR_code _ _ _ _ _, formatR_and .dec _ _ _ _ (Opcode.mask .dec) (by decide) (cleared (by decide) _) (cleared (by decide) _) (by decide) (by decide)⟩

theorem mul (rd rs1 rs2 : Reg) : Statement (.mul rd rs1 rs2) :=
  ⟨formatR_code _ _ _ _ _, formatR_and .mul _ _ _ _ (Opcode.mask .mul) (by decide) (cleared (by decide) _) (cleared (by decide) _) (cleared (by decide) _) (by decide)⟩

theorem divmod (rd rd2 rs1 rs2 : Reg) : Statement (.divmod rd rd2 rs1 rs2) :=
  ⟨formatR_code _ _ _ _ _, formatR_and .divmod _ _ _ _ (Opcode.mask .divmod) (by decide) (cleared (by decide) _) (cleared (by decide) _) (cleared (by decide) _) (cleared (by decide) _)⟩

theorem div (rd rs1 rs2 : Reg) : Statement (.div rd rs1 rs2) :=
  ⟨formatR_code _ _ _ _ _, formatR_and .div _ _ _ _ (Opcode.mask .div) (by decide) (cleared (by decide) _) (cleared (by decide) _) (cleared (by decide) _) (by decide)⟩

theorem mod (rd rs1 rs2 : Reg) : Statement (.mod rd rs1 rs2) :=
  ⟨formatR_code _ _ _ _ _, formatR_and .mod _ _ _ _ (Opcode.mask .mod) (by decide) (cleared (by decide) _) (cleared (by decide) _) (cleared (by decide) _) (by decide)⟩

theorem and (rd rs1 rs2 : Reg) : Statement (.and rd rs1 rs2) :=
  ⟨formatR_code _ _ _ _ _, formatR_and .and _ _ _ _ (Opcode.mask .and) (by decide) (cleared (by decide) _) (cleared (by decide) _) (cleared (by decide) _) (by decide)⟩

theorem or (rd rs1 rs2 : Reg) : Statement (.or rd rs1 rs2) :=
  ⟨formatR_code _ _ _ _ _, formatR_and .or _ _ _ _ (Opcode.mask .or) (by decide) (cleared (by decide) _) (cleared (by decide) _) (cleared (by decide) _) (by decide)⟩

theorem xor (rd rs1 rs2 : Reg) : Statement (.xor rd rs1 rs2) :=
  ⟨formatR_code _ _ _ _ _, formatR_and .xor _ _ _ _ (Opcode.mask .xor) (by decide) (cleared (by decide) _) (cleared (by decide) _) (cleared (by decide) _) (by decide)⟩

theorem shl (rd rs1 : Reg) : Statement (.shl rd rs1) :=
  ⟨formatR_code _ _ _ _ _, formatR_and .shl _ _ _ _ (Opcode.mask .shl) (by decide) (cleared (by decide) _) (cleared (by decide) _) (by decide) (by decide)⟩

theorem shr (rd rs1 : Reg) : Statement (.shr rd rs1) :=
  ⟨formatR_code _ _ _ _ _, formatR_and .shr _ _ _ _ (Opcode.mask .shr) (by decide) (cleared (by decide) _) (cleared (by decide) _) (by decide) (by decide)⟩

end Sys2Proof.Laws.EncodedWord
end

