-- ==== Sys2Proof/Machine/Script.lean ====
section
/-!
DEFINITION. The host agent running a script against the block (30_encoding.md R99). Host variables and control
flow belong to the host, so they stand here and not in State (10_state.md R25, R42). DESIGN CHOICE (log 20): where R99
is silent on the notation, the conventions are the model's.
-/

namespace Sys2Proof.Machine

/-- A line of a host script: an optional label and a step (30_encoding.md R99). -/
structure ScriptLine where
  label : Option String
  act : HostStep
  deriving DecidableEq, Repr

/-- Why a script has ended (30_encoding.md R99; log 20). -/
inductive ScriptEnd where
  /-- `halt` -/
  | halted
  /-- a `wait` saw FAULT = 1 -/
  | inFaultState
  /-- a jump to a label no line carries (log 20) -/
  | noSuchLabel
  /-- control ran past the last line (log 20) -/
  | pastLastLine
  deriving DecidableEq, Repr

/-- The host at work on a script, and the block it drives (30_encoding.md R99). -/
structure ScriptState where
  block : State
  script : List ScriptLine
  /-- index of the line being run -/
  line : Nat
  /-- the line's CMD write is done and its `wait` is polling -/
  polling : Bool
  /-- host variables, latest binding first -/
  vars : List (String × Native)
  /-- the host's current status: the last STATUS word a `wait` read -/
  st : BitVec 32
  ended : Option ScriptEnd
  deriving DecidableEq, Repr

/-- A script about to start on a block. DESIGN CHOICE (log 20): `st` is 0 until the first `wait` ends. -/
def ScriptState.start (block : State) (script : List ScriptLine) : ScriptState :=
  ⟨block, script, 0, false, [], 0, none⟩

/-- Go on to the line after this one. -/
def ScriptState.advance (h : ScriptState) : ScriptState := { h with line := h.line + 1, polling := false }

/-- `goto label` (30_encoding.md R99). DESIGN CHOICE (log 20): R99 does not say that labels are unique; where several lines
carry the label, the first of them is meant. A label no line carries ends the script. -/
def ScriptState.jump (h : ScriptState) (label : String) : ScriptState :=
  match h.script.findIdx? fun l => l.label == some label with
  | some k => { h with line := k, polling := false }
  | none => { h with ended := some .noSuchLabel }

/-- One poll of a `wait`: STATUS is read; at BUSY = 0 the word becomes `st`, and FAULT = 1 stops the script (30_encoding.md
R99). DESIGN CHOICE (log 20): the unit has one turn before each poll, and the block's own list of turns is not read. -/
def ScriptState.poll (h : ScriptState) : Host.Outcome ScriptState Fault Refusal :=
  match unitTurn h.block with
  | .fault f => .fault f
  | .refused r => .refused r
  | .next b =>
    let b := hostAccess (.read Csr.status.offset Csr.status.width) b
    let st := b.statusWord
    if st.getLsbD 0 then .next { h with block := b, polling := true }
    else if st.getLsbD 8 then .next { h with block := b, polling := false, st := st, ended := some .inFaultState }
    else .next { h with block := b, st := st }.advance

/-- One step of the host on its script (30_encoding.md R99). DESIGN CHOICE (log 20): a test of a host variable that no `rd`
has bound yet is false, so control goes on to the next line; an `rd` that delivers nothing leaves its variable as it was;
running past the last line ends the script, and an ended script stays as it is. -/
def scriptStep (h : ScriptState) : Host.Outcome ScriptState Fault Refusal :=
  if h.ended.isSome then .next h
  else if h.polling then h.poll
  else
    match h.script[h.line]? with
    | none => .next { h with ended := some .pastLastLine }
    | some l =>
      match l.act with
      | .wr c x => .next { h with block := hostAccess (.write c.offset c.width x) h.block }.advance
      | .rd c x =>
        let b := hostAccess (.read c.offset c.width) { h.block with readData := none }
        match b.readData with
        | some d => .next { h with block := b, vars := (x, d) :: h.vars }.advance
        | none => .next { h with block := b }.advance
      | .command i =>
        .next { h with
          block := hostAccess (.write Csr.cmd.offset Csr.cmd.width ((encode i).setWidth 64)) h.block
          polling := true }
      | .wait => h.poll
      | .ifStatus f x label => .next (if f.get h.st = x then h.jump label else h.advance)
      | .ifVar x v label => .next (if h.vars.lookup x = some v then h.jump label else h.advance)
      | .goto label => .next (h.jump label)
      | .halt => .next { h with ended := some .halted }

end Sys2Proof.Machine
end

