-- ==== Sys2Proof/Tests/Slice0.lean ====
section
/-!
SUPPORT. The model's own tests: well-formedness, decoding of words written from 30_encoding.md R82, R83 and R85, one step
of each command with the results of 95_test_vectors.md, the host protocol and reset rows, and a witness of the hypotheses
of each obligation.
-/

namespace Sys2Proof.Tests

open Sys2Proof.Machine

/-! ## Small machines -/

def c32x2 : Config := ⟨32, 2, by decide, by decide⟩
def c32x1 : Config := ⟨32, 1, by decide, by decide⟩
def c8x4 : Config := ⟨8, 4, by decide, by decide⟩
def c64x2 : Config := ⟨64, 2, by decide, by decide⟩

/-- An idle machine with V1 = a, V2 = b, V4 = [6, 5, …] and ARG given; every other register 0. -/
def idle (c : Config) (a b : Nat) (arg : Native) : State :=
  { ((State.resetOf c).setReg 1 (enc c.base c.N a)).setReg 2 (enc c.base c.N b) with
    arg := arg, busy := false, pend := .none }

/-- What the unit's turn leaves of a pending word: the value of a register and the STATUS word. -/
def ran (s : State) (w : CmdWord) (r : Reg) : Option (Nat × Nat) :=
  match unitTurn (s.accept w) with
  | .next t => some (t.value r, t.statusWord.toNat)
  | _ => none

/-- What the unit's turn leaves of a pending word: RESULT and the STATUS word. -/
def gave (s : State) (w : CmdWord) : Option (Nat × Nat) :=
  match unitTurn (s.accept w) with
  | .next t => some (t.result.toNat, t.statusWord.toNat)
  | _ => none

/-- Whether decoding refuses a word with this cause. -/
def refuses (n : Nat) (w : CmdWord) (c : Cause) : Bool :=
  match decode n w with
  | .error d => d == c
  | .ok _ => false

/-- Whether decoding reads this command from a word. -/
def reads (n : Nat) (w : CmdWord) (i : Instr) : Bool :=
  match decode n w with
  | .error _ => false
  | .ok j => j == i

/-! ## Well-formedness: an ill-formed term for each check (30_encoding.md R90) -/

theorem test_wf_divmod_same_destinations : Instr.wellFormed 2 (.divmod 3 3 1 2) = false := by decide
theorem test_wf_divmod : Instr.wellFormed 2 (.divmod 3 4 1 2) = true := by decide
theorem test_wf_setl_index : Instr.wellFormed 2 (.setl 4 2) = false ∧ Instr.wellFormed 2 (.setl 4 1) = true := by decide
theorem test_wf_getl_index : Instr.wellFormed 2 (.getl 4 65535) = false ∧ Instr.wellFormed 2 (.getl 4 1) = true := by
  decide

/-! ## Decoding: a word of every command, from the tables of 95_test_vectors.md and the layouts of R82 and R83 -/

theorem test_decode_nop : reads 2 0x00000000#32 (.nop) = true := by decide -- V95
theorem test_decode_clr : reads 2 0x000001C1#32 (.clr 7) = true := by decide -- V96
theorem test_decode_mov : reads 2 0x000008C2#32 (.mov 3 2) = true := by decide -- V97
theorem test_decode_ldn : reads 2 0x00000043#32 (.ldn 1) = true := by decide -- S1
theorem test_decode_ton : reads 2 0x00000404#32 (.ton 1) = true := by decide -- V102
theorem test_decode_setl : reads 2 0x00010105#32 (.setl 4 1) = true := by decide -- D-17
theorem test_decode_getl : reads 2 0x00010106#32 (.getl 4 1) = true := by decide -- V109
theorem test_decode_cmp : reads 2 0x00008408#32 (.cmp 1 2) = true := by decide -- V1
theorem test_decode_eq : reads 2 0x00008409#32 (.eq 1 2) = true := by decide -- V9
theorem test_decode_isz : reads 2 0x0000040A#32 (.isz 1) = true := by decide -- V12
theorem test_decode_add : reads 2 0x000084D0#32 (.add 3 1 2) = true := by decide -- V15
theorem test_decode_sub : reads 2 0x000084D1#32 (.sub 3 1 2) = true := by decide -- V22
theorem test_decode_inc : reads 2 0x000004D2#32 (.inc 3 1) = true := by decide -- V29
theorem test_decode_dec : reads 2 0x000004D3#32 (.dec 3 1) = true := by decide -- V33
theorem test_decode_mul : reads 2 0x000084D8#32 (.mul 3 1 2) = true := by decide -- V36
theorem test_decode_divmod : reads 2 0x0008845C#32 (.divmod 1 2 1 2) = true := by decide -- V57
theorem test_decode_divmod_high : reads 2 0x003BFFDC#32 (.divmod 15 14 15 15) = true := by decide -- D-14
theorem test_decode_div : reads 2 0x0000849D#32 (.div 2 1 2) = true := by decide -- V64
theorem test_decode_mod : reads 2 0x000084DE#32 (.mod 3 1 2) = true := by decide -- V66
theorem test_decode_and : reads 2 0x000084E0#32 (.and 3 1 2) = true := by decide -- V70
theorem test_decode_or : reads 2 0x000084E1#32 (.or 3 1 2) = true := by decide -- V71
theorem test_decode_xor : reads 2 0x000084E2#32 (.xor 3 1 2) = true := by decide -- V72
theorem test_decode_shl : reads 2 0x000004E4#32 (.shl 3 1) = true := by decide -- V77
theorem test_decode_shr : reads 2 0x000004E5#32 (.shr 3 1) = true := by decide -- V85

theorem test_decode_illegal_opcodes : (refuses 2 0x00000007#32 .illegalOpcode && refuses 2 0xFFC00007#32 .illegalOpcode
    && refuses 2 0x0000003F#32 .illegalOpcode && refuses 2 0x00000023#32 .illegalOpcode) = true := by decide -- D-1 to D-4
theorem test_decode_reserved_bits : (refuses 2 0x00400010#32 .reservedNonzero && refuses 2 0x00040010#32 .reservedNonzero
    && refuses 2 0x00000040#32 .reservedNonzero && refuses 2 0x80000000#32 .reservedNonzero
    && refuses 2 0x00000403#32 .reservedNonzero && refuses 2 0x0000400A#32 .reservedNonzero) = true := by
  decide -- D-5 to D-10
theorem test_decode_reserved_before_index : (refuses 2 0x00000505#32 .reservedNonzero
    && refuses 2 0xFFFF0506#32 .reservedNonzero && refuses 2 0x003FFFE5#32 .reservedNonzero) = true := by
  decide -- D-15, D-18, D-19
theorem test_decode_conflict : (refuses 2 0x0000001C#32 .operandConflict && refuses 2 0x000C84DC#32 .operandConflict
    && refuses 2 0x003FFFDC#32 .operandConflict) = true := by decide -- D-11 to D-13
theorem test_decode_index : refuses 2 0x00020105#32 .badLimbIndex = true := by decide -- D-16

/-! ## One step of each command (95_test_vectors.md section 2; the row is named after each) -/

theorem test_nop_clears : ran { idle c32x2 0 0 0 with ovf := true } 0x00000000#32 3 = some (0, 0) := by decide -- V95
theorem test_clr : ran ((idle c32x2 0 0 0).setReg 7 [0x1234, 0]) 0x000001C1#32 7 = some (0, 0) := by decide -- V96
theorem test_mov : ran (idle c32x2 0 0x500000007 0) 0x000008C2#32 3 = some (0x500000007, 0) := by decide -- V97
theorem test_ldn : ran (idle c32x2 0 0 0x0123456789ABCDEF#64) 0x00000003#32 0 = some (0x0123456789ABCDEF, 0) := by decide -- V98
theorem test_ldn_overflow : ran (idle c32x1 0 0 0x100000005#64) 0x00000003#32 0 = some (5, 2) := by decide -- V99
theorem test_ton : gave (idle c32x2 0xFFFFFFFFFFFFFFFF 0 0) 0x00000404#32 = some (0xFFFFFFFFFFFFFFFF, 0) := by decide -- V103
theorem test_ton_overflow : gave (idle c64x2 0x10000000000000005 0 0) 0x00000404#32 = some (5, 2) := by decide -- V105
theorem test_setl_keeps : ran ((idle c32x2 0 0 0x100000002#64).setReg 4 [0, 0xDEADBEEF]) 0x00000105#32 4
    = some (0xDEADBEEF00000002, 2) := by decide -- V107
theorem test_setl_bad_index : ran (idle c32x2 0 0 1) 0x00020105#32 4 = some (0, 0x900) := by decide -- V108
theorem test_getl : gave ((idle c8x4 0 0 0).setReg 4 [0x18, 0x24, 0x42, 0x81]) 0x00030106#32 = some (0x81, 0) := by
  decide -- V110
theorem test_getl_bad_index : gave ((idle c32x2 0 0 0).setReg 4 [1, 0]) 0xFFFF0106#32 = some (0, 0x900) := by decide -- V111
theorem test_cmp_greater : ran (idle c32x2 0x100000000 0xFFFFFFFF 0) 0x00008408#32 3 = some (0, 0x18) := by decide -- V1
theorem test_cmp_less : ran (idle c32x2 0x500000006 0x500000007 0) 0x00008408#32 3 = some (0, 0x08) := by decide -- V4
theorem test_eq : ran (idle c32x2 5 5 0) 0x00008409#32 3 = some (0, 4) := by decide -- V9
theorem test_eq_position : ran (idle c32x2 5 0x500000000 0) 0x00008409#32 3 = some (0, 0) := by decide -- V10
theorem test_isz : ran (idle c32x2 0 0 0) 0x0000040A#32 3 = some (0, 4) := by decide -- V12
theorem test_isz_top_limb : ran (idle c32x2 0x8000000000000000 0 0) 0x0000040A#32 3 = some (0, 0) := by decide -- V13
theorem test_add_carry : ran (idle c32x2 0xFFFFFFFF 1 0) 0x000084D0#32 3 = some (0x100000000, 0) := by decide -- V15
theorem test_add_aliased : ran (idle c32x2 0x8000000000000001 0 0) 0x00004450#32 1 = some (2, 2) := by decide -- V19
theorem test_sub_borrow : ran (idle c8x4 0x01000000 1 0) 0x000084D1#32 3 = some (0x00FFFFFF, 0) := by decide -- V27
theorem test_sub_wraps : ran (idle c32x2 3 5 0) 0x000084D1#32 3 = some (0xFFFFFFFFFFFFFFFE, 2) := by decide -- V23
theorem test_inc_stops : ran (idle c8x4 0x12FFFFFF 0 0) 0x000004D2#32 3 = some (0x13000000, 0) := by decide -- V31
theorem test_inc_wraps : ran (idle c32x2 0xFFFFFFFFFFFFFFFF 0 0) 0x000004D2#32 3 = some (0, 2) := by decide -- V30
theorem test_dec_stops : ran (idle c8x4 0x13000000 0 0) 0x000004D3#32 3 = some (0x12FFFFFF, 0) := by decide -- V35
theorem test_dec_wraps : ran (idle c32x2 0 0 0) 0x00000453#32 1 = some (0xFFFFFFFFFFFFFFFF, 2) := by decide -- V32
theorem test_mul_dropped_pair : ran (idle c8x4 0x01000000 0x00000100 0) 0x000084D8#32 3 = some (0, 2) := by decide -- V46
theorem test_mul_zero_pairs_dropped : ran (idle c8x4 0x00010000 0x00000100 0) 0x000084D8#32 3 = some (0x01000000, 0) := by decide -- V47
theorem test_divmod_remainder_over_source : ran (idle c32x2 100 7 0) 0x0004849C#32 1 = some (2, 0) := by decide -- V58
theorem test_divmod_by_zero : ran (idle c32x2 9 0 0) 0x001084DC#32 3 = some (0, 0xB00) := by decide -- V60
theorem test_div_over_source : ran (idle c32x2 0x100000000 0x10 0) 0x0000849D#32 2 = some (0x10000000, 0) := by decide -- V64
theorem test_div_by_zero : ran (idle c32x2 6 0 0) 0x000084DD#32 3 = some (0, 0xB00) := by decide -- V65
theorem test_mod : ran (idle c32x2 0x123456789ABCDEF0 0x100000001 0) 0x000084DE#32 3 = some (0x88888878, 0) := by decide -- V66
theorem test_mod_by_zero : ran (idle c32x2 6 0 0) 0x000084DE#32 3 = some (0, 0xB00) := by decide -- V69
theorem test_and : ran (idle c32x2 0xFF00FF00F0F0F0F0 0x0FF00FF0FFFF0000 0) 0x000084E0#32 3 = some (0x0F000F00F0F00000, 0) := by decide -- V70
theorem test_or : ran (idle c32x2 0xFF00FF00F0F0F0F0 0x0FF00FF0FFFF0000 0) 0x000084E1#32 3 = some (0xFFF0FFF0FFFFF0F0, 0) := by decide -- V71
theorem test_xor : ran (idle c32x2 0xFF00FF00F0F0F0F0 0x0FF00FF0FFFF0000 0) 0x000084E2#32 3 = some (0xF0F0F0F00F0FF0F0, 0) := by decide -- V72
theorem test_xor_aliased : ran (idle c32x2 0x1234 0 0) 0x00004462#32 1 = some (0, 0) := by decide -- V74
theorem test_shl_limb_and_bits : ran (idle c32x2 0x0123456789ABCDEF 0 36#64) 0x000004E4#32 3 = some (0x9ABCDEF000000000, 0) := by decide -- V80
theorem test_shl_total_width : ran (idle c32x2 0x0123456789ABCDEF 0 64#64) 0x000004E4#32 3 = some (0, 0) := by decide -- V82
theorem test_shr_limb_and_bits : ran (idle c8x4 0x12F0A5C3 0 12#64) 0x000004E5#32 3 = some (0x00012F0A, 0) := by decide -- V93
theorem test_shr_top_bit : ran (idle c32x2 0x8000000000000000 0 63#64) 0x000004E5#32 3 = some (1, 0) := by decide -- V89
theorem test_divmod_conflict_first : ran (idle c32x2 9 0 0) 0x000C84DC#32 3 = some (0, 0x700) := by decide -- V61

/-! ## Host accesses, faults and reset (95_test_vectors.md section 2.9) -/

theorem test_h1_reset_status : (hostRead 0x18 32 (State.resetOf c32x2)).readData = some 1#64
    ∧ (hostRead 0x00 32 (State.resetOf c32x2)).readData = some 0#64
    ∧ (hostRead 0x20 32 (State.resetOf c32x2)).readData = some 0x0F000120#64 := by decide -- H1
theorem test_config_words : configWord Config.default = 0x0F001F20#32 ∧ configWord c8x4 = 0x0F000308#32
    ∧ configWord c64x2 = 0x0F000140#32 := by decide -- section 2.9
theorem test_h2_cmd_write : (hostWrite 0x00 32 0x000084D0#64 (idle c32x2 1 2 0)).statusWord = 1#32
    ∧ (hostWrite 0x00 32 0x000084D0#64 (idle c32x2 1 2 0)).pend = .command 0x000084D0#32 := by decide -- H2
theorem test_h3_cmd_write_while_busy :
    (hostWrite 0x00 32 0#64 ((idle c32x2 1 2 0).accept 0x000084D0#32)).statusWord = 0xD00#32 := by decide -- H3
theorem test_h4_arg_read_while_busy :
    (hostRead 0x08 64 ((idle c32x2 1 2 0).accept 0x000084D0#32)).statusWord = 0xD00#32 := by decide -- H4
theorem test_h6_status_write : (hostWrite 0x18 32 0#64 (idle c32x2 1 2 0)).statusWord = 0xD00#32 := by decide -- H6
theorem test_h7_unlisted_offset : (hostRead 0x28 32 (idle c32x2 1 2 0)).statusWord = 0xD00#32 := by decide -- H7
theorem test_h8_narrow_access : (hostRead 0x08 32 (idle c32x2 1 2 0)).statusWord = 0xD00#32 := by decide -- H8
theorem test_h9_response_kept : ({ idle c32x2 0 0 0 with ovf := true }.accept 0#32).statusWord = 3#32 := by decide -- H9

/-- The fault state a protocol violation with nothing pending leaves. -/
def faulted : State := (idle c32x2 1 2 0).raise .hostProtocol

theorem test_h10_fault_state : hostWrite 0x00 32 0x10#64 faulted = faulted ∧ hostWrite 0x08 64 5#64 faulted = faulted
    ∧ (hostRead 0x28 32 faulted).readData = some 0#64 := by decide -- H10
theorem test_h11_reset : (resetAgent faulted).statusWord = 1#32 ∧ (resetAgent faulted).reg 1 = [0, 0] := by decide -- H11

/-- One step from reset ends initialisation, and the placed word runs at the very next step (log 13). -/
theorem test_step_init : (match step (State.resetOf c32x2) with
    | .next t => t.statusWord.toNat
    | _ => 1) = 0 := by decide
theorem test_step_fetched_word : (match step ((State.resetOf c32x2).withFetchWord 32 0x000084D2) with
    | .next t => t.reg 2
    | _ => []) = [0, 0] := by decide
theorem test_abandoned_add_keeps_others :
    (hostWrite 0x00 32 0#64 ((idle c32x2 1 2 0).accept 0x000084D0#32)).reg 1 = [1, 0] := by decide

/-! ## Witnesses: the hypotheses of each obligation can be met together -/

/-- V1 = 6 + 5·BASE, V2 = 7 + 5·BASE, ARG = 1, W = 32, N = 2. -/
def m : State := idle c32x2 0x500000006 0x500000007 1

/-- V1 = MAXV of one limb, V2 = 2. -/
def one : State := idle c32x1 0xFFFFFFFF 2 1

/-- W = 64: V1 has a limb above limb 0. -/
def wide : State := idle c64x2 0x10000000000000005 2 1

theorem m_ok : m.LimbsOk := by decide
theorem one_ok : one.LimbsOk := by decide
theorem wide_ok : wide.LimbsOk := by decide
theorem m_value : m.value 2 ≠ 0 ∧ m.value 3 = 0 := by decide
theorem above (f g : List Nat) (hf : f.length ≤ 2) (hg : g.length ≤ 2) {j : Nat} (hj : 1 < j) : f.getD j 0 = g.getD j 0 := by
  rw [List.getD_eq_default _ _ (by omega), List.getD_eq_default _ _ (by omega)]

theorem witness_NopOnlyClearsResponse : m.LimbsOk ∧ (0x40#32).toNat % 64 = 0 ∧ 0x40#32 ≠ (0 : CmdWord)
    ∧ (0x80000000#32).toNat % 64 = 0 := ⟨m_ok, by decide⟩
theorem witness_ClrZeroesDestination : m.LimbsOk := m_ok
theorem witness_MovCopiesAllLimbs : m.LimbsOk := m_ok
theorem witness_LdnImportsArg : m.LimbsOk ∧ 64 ≤ m.cfg.totalBits ∧ 1 < m.cfg.N ∧ one.LimbsOk ∧ ¬ 64 ≤ one.cfg.totalBits :=
  ⟨m_ok, by decide, by decide, one_ok, by decide⟩
theorem witness_TonExportsToResult : m.LimbsOk ∧ m.cfg.totalBits ≤ 64 ∧ wide.LimbsOk ∧ wide.cfg.W = 64
    ∧ wide.limb 1 1 ≠ 0 := ⟨m_ok, by decide, wide_ok, by decide, by decide⟩
theorem witness_SetlWritesOneLimb : m.LimbsOk ∧ (1 : LimbIdx).val < m.cfg.N ∧ (0 : Nat) ≠ (1 : LimbIdx).val
    ∧ wide.LimbsOk ∧ wide.cfg.W = 64 := ⟨m_ok, by decide, by decide, wide_ok, by decide⟩
theorem witness_GetlReadsOneLimb : m.LimbsOk ∧ (1 : LimbIdx).val < m.cfg.N := ⟨m_ok, by decide⟩
theorem witness_CmpOrdersByTopDifferingLimb : m.LimbsOk ∧ m.limb 1 0 ≠ m.limb 2 0
    ∧ ∀ j, 0 < j → m.limb 1 j = m.limb 2 j := by
  refine ⟨m_ok, by decide, fun j hj => ?_⟩
  by_cases h : j = 1
  · subst h; decide
  · exact above _ _ (by decide) (by decide) (by omega)
theorem witness_EqTestsEveryLimb : m.LimbsOk := m_ok
theorem witness_IszTestsEveryLimb : m.LimbsOk := m_ok
theorem witness_ComparatorLaws : m.LimbsOk ∧ m.value 3 = 0 := ⟨m_ok, m_value.2⟩
theorem witness_AddWrapsAndReportsCarry : m.LimbsOk := m_ok
theorem witness_SubWrapsAndReportsBorrow : m.LimbsOk := m_ok
theorem witness_IncAddsOne : m.LimbsOk ∧ 0 < m.cfg.N ∧ m.limb 1 0 ≠ m.cfg.base - 1 ∧ 0 < 1 := ⟨m_ok, by decide⟩
theorem witness_DecSubtractsOne : m.LimbsOk ∧ 0 < m.cfg.N ∧ m.limb 1 0 ≠ 0 ∧ 0 < 1 := ⟨m_ok, by decide⟩
theorem witness_AdditiveLaws : (idle c32x2 5 1 0).LimbsOk ∧ (3 : Reg) ≠ 2 ∧ (idle c32x2 5 1 0).value 2 = 1 := by decide
theorem witness_MulWrapsAndReportsOverflow : m.LimbsOk := m_ok
theorem witness_MultiplicativeLaws : one.LimbsOk ∧ 1 < one.cfg.totalBits ∧ one.arg.toNat = 1 ∧ one.value 2 = 2 ^ 1
    ∧ one.cfg.W = 32 ∧ one.cfg.N = 1 ∧ one.value 1 = 0xFFFFFFFF ∧ one.value 2 = 2 := ⟨one_ok, by decide⟩
theorem witness_DivmodGivesQuotientAndRemainder : m.LimbsOk ∧ (3 : Reg) ≠ 4 ∧ m.value 2 ≠ 0 ∧ m.value 3 = 0 :=
  ⟨m_ok, by decide, m_value⟩
theorem witness_DivGivesQuotient : m.LimbsOk ∧ m.value 2 ≠ 0 ∧ m.value 3 = 0 := ⟨m_ok, m_value⟩
theorem witness_ModGivesRemainder : m.LimbsOk ∧ m.value 2 ≠ 0 ∧ m.value 3 = 0 := ⟨m_ok, m_value⟩
theorem witness_DivisionLaws : m.LimbsOk ∧ (3 : Reg) ≠ 4 ∧ m.value 2 ≠ 0 ∧ m.value 1 < m.value 2 :=
  ⟨m_ok, by decide, m_value.1, by decide⟩
theorem witness_LongDivisionIsDivMod : m.LimbsOk ∧ m.value 2 ≠ 0 ∧ m.value 2 - 1 < m.value 2
    ∧ m.cfg.base - 1 < m.cfg.base := ⟨m_ok, m_value.1, by decide⟩
theorem witness_LogicActsOnEveryLimb : m.LimbsOk := m_ok
theorem witness_ShlShiftsLeftByArg : m.LimbsOk := m_ok
theorem witness_ShrShiftsRightByArg : (m.setArg 64#64).LimbsOk ∧ (m.setArg 64#64).cfg.totalBits ≤ (m.setArg 64#64).arg.toNat :=
  ⟨m_ok, by decide⟩
theorem witness_BitwiseLaws : m.LimbsOk ∧ m.arg.toNat < m.cfg.totalBits ∧ (2 ^ 63) + (2 ^ 63 - 1) < 2 ^ 64 :=
  ⟨m_ok, by decide⟩
theorem witness_ResponseFieldsByCommand : m.fault = false
    ∧ (∃ t, exec (.cmp 1 2) m = .next t ∧ t.fault = false ∧ t.rel ≠ .none)
    ∧ (∃ t, exec (.div 4 1 3) m = .next t ∧ t.fault = true) :=
  ⟨rfl, ⟨_, rfl, rfl, by decide⟩, ⟨m.raise .divideByZero, by simp [exec, execDiv, State.divided, State.divisorZero, m_value.2], rfl⟩⟩
theorem witness_CommandReadsAndWritesItsRow : (∃ t, exec (.add 3 1 2) m = .next t) ∧ m.cfg = (m.setReg 5 [1, 1]).cfg
    ∧ m.fault = false ∧ (m.setReg 5 [1, 1]).fault = false
    ∧ (∀ r ∈ (Instr.shl 3 1).sources, m.reg r = (m.setReg 5 [1, 1]).reg r)
    ∧ ((Instr.shl 3 1).readsArg = true → m.arg = (m.setReg 5 [1, 1]).arg) :=
  ⟨⟨_, rfl⟩, rfl, rfl, rfl, by decide, fun _ => rfl⟩
theorem witness_DestinationChoiceDoesNotMatter : (3 : Reg) ≠ 4 ∧ (1 : Reg) ≠ 2
    ∧ (Instr.add 3 1 2, Instr.add 1 1 2) ∈ [(Instr.add 3 1 2, Instr.add 1 1 2), (.sub 3 1 2, .sub 1 1 2)] := by
  decide
theorem witness_OnlyZeroDivisorFaultsAtExecute : Instr.wellFormed m.cfg.N (.div 4 1 3) = true ∧ m.value 3 = 0
    ∧ Instr.wellFormed m.cfg.N (.setl 4 1) = true := by decide
theorem witness_DecodeOfEncode : Instr.wellFormed 2 (.divmod 15 14 15 15) = true ∧ Instr.wellFormed 65536 (.setl 15 65535) = true
    ∧ Instr.wellFormed 1 (.getl 0 0) = true := by decide
theorem witness_EncodeOfDecode : reads 2 0x003BFFDC#32 (.divmod 15 14 15 15) = true := by decide
/-- A word for each clause: an unassigned opcode, a mismatch, the conflict, the index at N and below it. -/
theorem witness_DecodeCausesInOrder : (0x07#32).toNat % 64 = 0x07
    ∧ ((0x00400010#32).toNat % 64 = 0x10 ∧ 0x00400010#32 &&& 0xFFFC003F#32 ≠ BitVec.ofNat 32 0x10)
    ∧ ((0x0000001C#32).toNat % 64 = 0x1C ∧ 0x0000001C#32 &&& 0xFFC0003F#32 = BitVec.ofNat 32 0x1C
        ∧ (0x0000001C#32).toNat / 2 ^ 6 % 16 = (0x0000001C#32).toNat / 2 ^ 18 % 16)
    ∧ ((0x00020105#32).toNat % 64 = 0x05 ∧ 0x00020105#32 &&& 0x0000FC3F#32 = BitVec.ofNat 32 0x05
        ∧ 2 ≤ (0x00020105#32).toNat / 2 ^ 16)
    ∧ ((0x00010105#32).toNat % 64 = 0x05 ∧ 0x00010105#32 &&& 0x0000FC3F#32 = BitVec.ofNat 32 0x05
        ∧ ¬ 2 ≤ (0x00010105#32).toNat / 2 ^ 16) := by decide
/-- With no turn listed and with the unit's: INIT, a word that decodes, one that does not, and an idle unit. -/
theorem witness_StepRunsPendingCommand : (State.resetOf c32x2).turns = [] ∧ (m.setTurns [.unit]).turns = .unit :: []
    ∧ ((State.resetOf c32x2).busy = true ∧ (State.resetOf c32x2).fault = false ∧ (State.resetOf c32x2).pend = .init)
    ∧ ((m.accept 0x000084D0#32).busy = true ∧ (m.accept 0x000084D0#32).pend = .command 0x000084D0#32
        ∧ reads m.cfg.N 0x000084D0#32 (.add 3 1 2) = true)
    ∧ ((m.accept 0x07#32).pend = .command 0x07#32 ∧ refuses m.cfg.N 0x07#32 .illegalOpcode = true)
    ∧ ¬ (m.busy = true ∧ m.fault = false) := by decide
theorem witness_FaultEntryIsPreciseOrAbandons :
    (∃ t, (m.accept 0x07#32).fault = false ∧ unitTurn (m.accept 0x07#32) = .next t ∧ t.fault = true)
    ∧ (m.accept 0x000084D0#32).fault = false ∧ (m.accept 0x000084D0#32).pend = .command 0x000084D0#32
    ∧ decode (m.accept 0x000084D0#32).cfg.N 0x000084D0#32 = .ok (.add 3 1 2)
    ∧ (m.accept 0x000084D0#32).Violation (.read 0x10 64) :=
  ⟨⟨_, rfl, rfl, rfl⟩, rfl, rfl, rfl, .inr (.inr ⟨.inr rfl, .inr rfl⟩)⟩
theorem witness_EarlierCauseWins : (m.accept 0x07#32).busy = true ∧ (m.accept 0x07#32).fault = false
    ∧ (m.accept 0x07#32).pend = .command 0x07#32 ∧ decode (m.accept 0x07#32).cfg.N 0x07#32 = .error .illegalOpcode
    ∧ (0x07#32).toNat % 64 ∈ [0x07] ∧ 0x26 ≤ (0x3F#32).toNat % 64
    ∧ (m.value 3 = 0 ∧ decode m.cfg.N 0x0000C51D#32 = .ok (.div 4 1 3))
    ∧ 0x0010C51C#32 = BitVec.ofNat 32 (0x1C + (4 : Reg).val * 2 ^ 6 + (1 : Reg).val * 2 ^ 10 + (3 : Reg).val * 2 ^ 14
        + (4 : Reg).val * 2 ^ 18)
    ∧ (m.accept 0x07#32).Violation (.write 0x00 32 0) :=
  ⟨rfl, rfl, rfl, rfl, by decide, by decide, ⟨m_value.2, rfl⟩, by decide, .inr (.inl ⟨rfl, .inr rfl⟩)⟩
/-- Every listed offset read while idle, the two written, STATUS read while busy, and a violation. -/
theorem witness_PermittedAccessesPerform : m.fault = false ∧ ¬ m.Violation (.read 0x00 32) ∧ ¬ m.Violation (.read 0x08 64)
    ∧ ¬ m.Violation (.read 0x10 64) ∧ ¬ m.Violation (.read 0x18 32) ∧ ¬ m.Violation (.read 0x20 32)
    ∧ ¬ m.Violation (.write 0x00 32 0) ∧ ¬ m.Violation (.write 0x08 64 0) ∧ m.Violation (.write 0x10 64 0)
    ∧ ¬ (m.accept 0).Violation (.read 0x18 32) := by
  refine ⟨rfl, ?_, ?_, ?_, ?_, ?_, ?_, ?_, ?_, ?_⟩ <;> simp only [State.Violation] <;> decide
theorem witness_FaultStateIsQuiescent : faulted.fault = true ∧ Turn.unit ≠ .reset ∧ (∃ u, takeTurn .unit faulted = .next u)
    ∧ (∃ u, takeTurn (.host (.write 0x00 32 0)) faulted = .next u) ∧ (0x28 : Nat) ∉ [0x00, 0x08, 0x10, 0x18, 0x20] :=
  ⟨rfl, by decide, ⟨_, rfl⟩, ⟨_, rfl⟩, by decide⟩
theorem witness_FirstCauseIsKept : faulted.fault = true ∧ Turn.reset ∉ faulted.turns ∧ ∃ t, stepN 2 faulted = .next t :=
  ⟨rfl, by decide, ⟨_, rfl⟩⟩
/-- A violation with nothing pending, and each kind of violation of the table. -/
theorem witness_HostViolationsFault : m.fault = false ∧ m.pend = .none ∧ m.Violation (.read 0x28 32)
    ∧ m.Violation (.read 0x08 32) ∧ m.Violation (.write 0x18 32 0) ∧ (m.accept 0).Violation (.write 0x00 32 0)
    ∧ (m.accept 0).Violation (.write 0x08 64 0) ∧ (m.accept 0).Violation (.read 0x10 64) := by
  refine ⟨rfl, rfl, ?_, ?_, ?_, ?_, ?_, ?_⟩ <;> simp only [State.Violation] <;> decide
theorem witness_BusyHidesPartialResults : (m.accept 0).busy = true ∧ (m.accept 0).fault = false
    ∧ one.reg 1 ≠ m.reg 1
    ∧ { m.accept 0 with v := one.v, arg := 9, result := 7 } = { m.accept 0 with v := one.v, arg := 9, result := 7 } :=
  ⟨rfl, rfl, by decide, rfl⟩
theorem witness_ReadsAreIdempotentCommandsAreNot : m.LimbsOk ∧ m.busy = false ∧ m.fault = false
    ∧ ¬ m.Violation (.read 0x08 64) ∧ ¬ m.Violation (.write 0x08 64 5) := by
  refine ⟨m_ok, rfl, rfl, ?_⟩
  simp only [State.Violation]
  decide
/-- A turn of each kind, and the transitions each clause speaks of. -/
theorem witness_BusyFollowsTheCommand : (∃ u, takeTurn .reset m = .next u)
    ∧ (∃ u, takeTurn (.host (.write 0x00 32 0)) m = .next u ∧ m.busy = false ∧ m.fault = false ∧ u.busy = true)
    ∧ (∃ u, takeTurn .unit (m.accept 0) = .next u ∧ (m.accept 0).fault = false)
    ∧ (∃ u, takeTurn .unit (m.accept 0x07#32) = .next u ∧ (m.accept 0x07#32).fault = false ∧ u.fault = true)
    ∧ (∃ u, takeTurn (.host (.read 0x18 32)) (m.accept 0) = .next u ∧ u.busy = true) :=
  ⟨⟨_, rfl⟩, ⟨_, rfl, rfl, rfl, rfl⟩, ⟨_, rfl, rfl⟩, ⟨_, rfl, rfl, rfl⟩, ⟨_, rfl, rfl⟩⟩
theorem witness_ArgStableWhileBusy : (∃ u, unitTurn (m.accept 0x000004C3#32) = .next u) ∧ (m.accept 0).busy = true :=
  ⟨⟨_, rfl⟩, rfl⟩
theorem witness_ResultChangesOnlyByTonGetl :
    ∃ u, takeTurn .unit (m.accept 0x00000404#32) = .next u ∧ u.result ≠ (m.accept 0x00000404#32).result :=
  ⟨_, rfl, by decide⟩
theorem witness_StatusWordLayout : m.fault = false := rfl
theorem witness_ConfigWordLayout : m.fault = false := rfl
theorem witness_OnlyLegalConfigurationsExist : (Config.elaborate 8 1).isSome = true ∧ (Config.elaborate 64 65536).isSome = true
    ∧ Config.elaborate 32 0 = none ∧ Config.elaborate 32 65537 = none ∧ Config.elaborate 12 5 = none := by decide

/-- An idle state and the reset state of a small machine meet the run invariant. -/
theorem m_inv : m.Inv where
  limbs := m_ok
  causeOfFault := by decide
  faultIdle := by decide
  busyIffPending := by decide
  pendingIsCmd := fun _ h => Pending.noConfusion h
  initIsReset := fun h => Pending.noConfusion h
  oneResponse := by decide
theorem reset_inv : (State.resetOf c32x2).Inv where
  limbs := by decide
  causeOfFault := by decide
  faultIdle := by decide
  busyIffPending := by decide
  pendingIsCmd := fun _ h => Pending.noConfusion h
  initIsReset := fun _ => rfl
  oneResponse := by decide
theorem witness_InitOnlyClearsBusy : (State.resetOf c32x2).Inv ∧ (State.resetOf c32x2).pend = .init := ⟨reset_inv, rfl⟩
theorem witness_StepKeepsLimbInvariant : m.LimbsOk ∧ ∃ t, step m = .next t := ⟨m_ok, ⟨_, rfl⟩⟩
theorem witness_StepKeepsInvariant : m.Inv ∧ (State.resetOf c32x2).Inv := ⟨m_inv, reset_inv⟩
theorem witness_PendingWorkCompletes : m.Inv ∧ (State.resetOf c32x2).Inv := ⟨m_inv, reset_inv⟩
theorem witness_ValueEncodesToLimbs : m.LimbsOk ∧ 0xFFFFFFFFFFFFFFFF < m.cfg.modulus ∧ 1 < m.cfg.N := ⟨m_ok, by decide⟩
theorem witness_LimbBitsAreValueBits : m.LimbsOk ∧ 1 < m.cfg.N ∧ 31 < m.cfg.W := ⟨m_ok, by decide⟩
theorem witness_ActiveLimbCount : m.LimbsOk ∧ alc (m.reg 1) = 2 ∧ alc (m.reg 3) = 0 := ⟨m_ok, by decide⟩
theorem witness_RelationPseudosAreTrue : m.LimbsOk := m_ok

end Sys2Proof.Tests
end

section
/-!
PROOFS. Configurations and values (00_scope.md R7, R12): elaboration case by case, a register and `encode` as the base-BASE
digits of a number, and the obligations O57 and O50.
-/

namespace Sys2Proof

/-! ## Elaboration -/

theorem Config.elaborate_of_legal {w n : Nat} (hw : w = 8 ∨ w = 16 ∨ w = 32 ∨ w = 64) (hn : 1 ≤ n ∧ n ≤ 65536) :
    Config.elaborate w n = some ⟨w, n, hw, hn⟩ := dif_pos ⟨hw, hn⟩

theorem Config.elaborate_of_not_legal {w n : Nat}
    (h : ¬ ((w = 8 ∨ w = 16 ∨ w = 32 ∨ w = 64) ∧ 1 ≤ n ∧ n ≤ 65536)) : Config.elaborate w n = none := dif_neg h

namespace Machine

/-! ## Registers as numbers -/

variable {s : State}

/-- The value of a register is the weighted sum of its N limbs (00_scope.md R12). -/
theorem value_eq_sum (h : s.LimbsOk) (r : Reg) :
    s.value r = ((List.range s.cfg.N).map fun i => s.limb r i * s.cfg.base ^ i).sum := by
  have hlen : (s.reg r).length = s.cfg.N := (h r).1
  calc s.value r = val s.cfg.base ((s.reg r).take s.cfg.N) := by rw [← hlen, List.take_length, State.value]
    _ = _ := val_take _ hlen.ge

/-- Limb i of a register is the base-BASE digit i of its value (00_scope.md R12). -/
theorem limb_eq_digit (h : s.LimbsOk) (r : Reg) (i : Nat) :
    s.limb r i = s.value r / s.cfg.base ^ i % s.cfg.base := (val_digit (h r).2 i).symm

theorem encode_value (h : s.LimbsOk) (r : Reg) : s.encode (s.value r) = s.reg r := by
  have hr := enc_val (h r).2
  rwa [(h r).1] at hr

theorem setReg_encode_value (r : Reg) {x : Nat} (hx : x < s.cfg.modulus) : (s.setReg r (s.encode x)).value r = x := by
  rw [State.setReg_value_self]
  exact val_enc_of_lt hx

theorem limbsOk_setReg_encode (h : s.LimbsOk) (r : Reg) (x : Nat) : (s.setReg r (s.encode x)).LimbsOk := by
  obtain ⟨hlen, hlt, -⟩ := encode_ok s x
  exact limbsOk_setReg h r hlen hlt

/-- After `V[r] <- enc(x)`, limb i is the base-BASE digit i of x (00_scope.md R12). -/
theorem setReg_encode_limb (h : s.LimbsOk) (r : Reg) {x : Nat} (hx : x < s.cfg.modulus) (i : Nat) :
    (s.setReg r (s.encode x)).limb r i = x / s.cfg.base ^ i % s.cfg.base := by
  rw [limb_eq_digit (limbsOk_setReg_encode h r x), setReg_encode_value r hx, State.setReg_cfg]

end Machine

end Sys2Proof

namespace Sys2Proof.Proofs

open Sys2Proof.Machine

/-- Settles O57: `val` and `enc` are inverse on the machine's registers, so each limb is a digit of the value. -/
theorem valueEncodesToLimbs : Obligations.ValueEncodesToLimbs := by
  intro s r h
  refine ⟨value_eq_sum h r, value_lt h r, encode_value h r, fun x hx => ⟨?_, ?_, ?_⟩, fun i _ => limb_eq_digit h r i⟩
  · exact enc_length _ _
  · exact setReg_encode_value r hx
  · exact fun i _ => setReg_encode_limb h r hx i

/-- Settles O50: elaboration is one test of legality (00_scope.md R7). -/
theorem onlyLegalConfigurationsExist : Obligations.OnlyLegalConfigurationsExist := by
  intro w n
  constructor
  · rintro ⟨hw, hn⟩
    exact ⟨_, Config.elaborate_of_legal hw hn, rfl, rfl⟩
  · exact Config.elaborate_of_not_legal

end Sys2Proof.Proofs
end

section
/-!
PROOFS. What each agent's turn can do, said once: the protocol fault field by field, the unit's turn as an inductive
relation, and a step as one turn on the same machine; and the obligation O52.
-/

namespace Sys2Proof

/-- Only TON and GETL write RESULT (10_state.md R35). -/
theorem Instr.writesResult_iff (i : Instr) : i.writesResult = true ↔ i.opcode = .ton ∨ i.opcode = .getl := by
  cases i <;> simp [Instr.writesResult, Instr.opcode]

/-- The causes that decoding reports (30_encoding.md R90). -/
theorem cause_of_decode_error {n : Nat} {w : CmdWord} {c : Cause} (h : decode n w = .error c) :
    c ∈ [Cause.illegalOpcode, .reservedNonzero, .operandConflict, .badLimbIndex] := by
  have operands : ∀ i : Instr, operandCause n i = some c → c = .operandConflict ∨ c = .badLimbIndex := by
    intro i hi
    cases i <;> simp_all [operandCause]
  unfold decode at h
  split at h
  · cases h; simp
  · split at h
    · cases h; simp
    · split at h
      · rename_i hc
        cases h
        rcases operands _ hc with rfl | rfl <;> simp
      · cases h

namespace Machine

variable (s : State)

/-! ## The protocol fault, field by field -/

/-- The fault entry of a protocol violation: V, RESULT and the free-value counter are those of the abandoned command. -/
theorem protocolFault_eq : s.protocolFault = { s with
    v := s.abandon.v, result := s.abandon.result, freeCount := s.abandon.freeCount
    fault := true, cause := .hostProtocol, busy := false, pend := .none } := by
  rw [State.protocolFault, (abandon_spec s).1]
  rfl

@[simp] theorem State.protocolFault_cfg : s.protocolFault.cfg = s.cfg := by rw [protocolFault_eq]
@[simp] theorem State.protocolFault_cmd : s.protocolFault.cmd = s.cmd := by rw [protocolFault_eq]
@[simp] theorem State.protocolFault_arg : s.protocolFault.arg = s.arg := by rw [protocolFault_eq]
@[simp] theorem State.protocolFault_ovf : s.protocolFault.ovf = s.ovf := by rw [protocolFault_eq]
@[simp] theorem State.protocolFault_cond : s.protocolFault.cond = s.cond := by rw [protocolFault_eq]
@[simp] theorem State.protocolFault_rel : s.protocolFault.rel = s.rel := by rw [protocolFault_eq]
@[simp] theorem State.protocolFault_turns : s.protocolFault.turns = s.turns := by rw [protocolFault_eq]
@[simp] theorem State.protocolFault_readData : s.protocolFault.readData = s.readData := by rw [protocolFault_eq]
@[simp] theorem State.protocolFault_busy : s.protocolFault.busy = false := rfl
@[simp] theorem State.protocolFault_fault : s.protocolFault.fault = true := rfl
@[simp] theorem State.protocolFault_cause : s.protocolFault.cause = .hostProtocol := rfl
@[simp] theorem State.protocolFault_pend : s.protocolFault.pend = .none := rfl

variable {s}

/-- A protocol fault leaves legal registers: what the abandoned command would have written is free, but below BASE. -/
theorem limbsOk_protocolFault (h : s.LimbsOk) : s.protocolFault.LimbsOk := by
  obtain ⟨-, limbs, -⟩ := abandon_spec s
  exact limbsOk_of_same rfl (fun _ => rfl) (limbs h)

/-- A protocol fault changes RESULT only by abandoning a TON or a GETL (60_exceptions.md R271). -/
theorem pending_of_protocolFault_result_ne (h : s.protocolFault.result ≠ s.result) :
    ∃ w i, s.pend = .command w ∧ decode s.cfg.N w = .ok i ∧ i.writesResult = true := by
  obtain ⟨-, -, same | ⟨w, i, hp, hd, -, result⟩⟩ := abandon_spec s
  · exact absurd (congrArg State.result same) h
  · refine ⟨w, i, hp, hd, ?_⟩
    by_contra hw
    exact h (result (by simpa using hw))

/-! ## The unit's turn -/

theorem State.OutputsOf.sameOutside {u : State} {i : Instr} (h : s.OutputsOf u i) : s.SameOutside u := by
  rw [h.rest]
  exact ⟨rfl, rfl, rfl, rfl, rfl, rfl, rfl, rfl⟩

theorem State.unitEnabled_eq_true_iff : s.unitEnabled = true ↔ s.busy = true ∧ s.fault = false := by
  simp [State.unitEnabled]

/-- What the unit's turn can make of `s` (30_encoding.md R94): wait, end initialisation, fault or complete the pending
command. -/
inductive State.UnitMoves (s : State) : State → Prop
  | waits (h : s.unitEnabled = false) : s.UnitMoves s
  | endsInit (h : s.unitEnabled = true) (hp : s.pend = .init) : s.UnitMoves s.endInit
  | faults (h : s.unitEnabled = true) {w : CmdWord} (hp : s.pend = .command w) {c : Cause}
      (hc : c ∈ [Cause.illegalOpcode, .reservedNonzero, .operandConflict, .badLimbIndex, .divideByZero]) :
      s.UnitMoves (s.raise c)
  | completes (h : s.unitEnabled = true) {w : CmdWord} (hp : s.pend = .command w) {i : Instr}
      (hd : decode s.cfg.N w = .ok i) {u : State} {p : Response} (hu : s.OutputsOf u i) (hr : p.MayBe i.opcode) :
      s.UnitMoves (u.complete p)

/-- The unit's turn answers a next state, but for an enabled unit with nothing pending (log 11). -/
theorem unitTurn_cases (s : State) :
    (∃ t, unitTurn s = .next t ∧ s.UnitMoves t)
      ∨ (unitTurn s = .fault .busyWithNothingPending ∧ s.unitEnabled = true ∧ s.pend = .none) := by
  cases he : s.unitEnabled with
  | false => exact .inl ⟨s, by simp [unitTurn, he], .waits he⟩
  | true =>
    have run : unitTurn s = unitStep s := by simp [unitTurn, he]
    rw [run]
    cases hp : s.pend with
    | none => exact .inr ⟨by simp [unitStep, hp], rfl, rfl⟩
    | init => exact .inl ⟨_, by simp [unitStep, hp], .endsInit he hp⟩
    | command w =>
      cases hd : decode s.cfg.N w with
      | error c =>
        refine .inl ⟨s.raise c, by simp [unitStep, hp, hd], .faults he hp ?_⟩
        exact List.mem_append_left [Cause.divideByZero] (cause_of_decode_error hd)
      | ok i =>
        have exec_pending : unitStep s = exec i s := by simp [unitStep, hp, hd]
        rw [exec_pending]
        obtain ⟨c, hc, e⟩ | ⟨u, p, e, hu, hr⟩ := exec_shape i s
        · exact .inl ⟨_, e, .faults he hp (List.mem_append_right [Cause.illegalOpcode, .reservedNonzero] hc)⟩
        · exact .inl ⟨_, e, .completes he hp hd hu hr⟩

theorem unitMoves_of_unitTurn {t : State} (h : unitTurn s = .next t) : s.UnitMoves t := by
  obtain ⟨t', e, m⟩ | ⟨e, -⟩ := unitTurn_cases s
  · cases e.symm.trans h
    exact m
  · cases e.symm.trans h

theorem State.UnitMoves.cfg_eq {t : State} (m : s.UnitMoves t) : t.cfg = s.cfg := by
  cases m with
  | completes _ _ _ hu _ => exact hu.sameOutside.1
  | _ => rfl

/-- After the unit's turn in the normal state BUSY is 0 (10_state.md R29). -/
theorem State.UnitMoves.busy_eq_false {t : State} (m : s.UnitMoves t) (hf : s.fault = false) : t.busy = false := by
  cases m with
  | waits h => simpa [State.unitEnabled, hf] using h
  | _ => rfl

theorem State.UnitMoves.eq_of_busy {t : State} (m : s.UnitMoves t) (hb : t.busy = true) : t = s := by
  cases m with
  | waits => rfl
  | _ => cases hb

theorem State.UnitMoves.limbsOk {t : State} (m : s.UnitMoves t) (h : s.LimbsOk) : t.LimbsOk := by
  cases m with
  | completes _ _ _ hu _ => exact limbsOk_of_same rfl (fun _ => rfl) (hu.limbs h)
  | _ => exact h

/-- The unit's turn changes RESULT only by a command that writes it (10_state.md R35). -/
theorem State.UnitMoves.pending_of_result_ne {t : State} (m : s.UnitMoves t) (h : t.result ≠ s.result) :
    ∃ w i, s.pend = .command w ∧ decode s.cfg.N w = .ok i ∧ i.writesResult = true := by
  cases m with
  | @completes _ w hp i hd u p hu _ =>
    refine ⟨w, i, hp, hd, ?_⟩
    by_contra hw
    exact h (hu.result (by simpa using hw))
  | _ => exact absurd rfl h

/-! ## A turn and a step -/

theorem sameMachine_setTurns (s : State) (ts : List Turn) : s.SameMachine (s.setTurns ts) := by constructor <;> rfl
theorem sameMachine_deliver (s : State) (x : Native) : s.SameMachine (s.deliver x) := by constructor <;> rfl
theorem sameMachine_deliverFree (s : State) : s.SameMachine s.deliverFree := by constructor <;> rfl
theorem sameMachine_refl (s : State) : s.SameMachine s := by constructor <;> rfl
theorem resetAgent_sameMachine (s : State) : (State.resetOf s.cfg).SameMachine (resetAgent s) := by constructor <;> rfl

theorem State.SameMachine.reg_eq {t : State} (h : s.SameMachine t) (r : Reg) : t.reg r = s.reg r := by
  rw [State.reg, State.reg, h.v]

/-- A step is one agent's turn on the same machine (00_scope.md R10). -/
theorem step_eq_takeTurn (s : State) : ∃ t s', step s = takeTurn t s' ∧ s.SameMachine s' := by
  unfold step
  cases s.turns with
  | nil => exact ⟨.unit, s, rfl, sameMachine_refl s⟩
  | cons t ts => exact ⟨t, s.setTurns ts, rfl, sameMachine_setTurns s ts⟩

theorem limbsOk_hostAccess (a : HostAccess) (h : s.LimbsOk) : (hostAccess a s).LimbsOk := by
  obtain e | ⟨x, e⟩ | ⟨e, -⟩ | ⟨w, e, -⟩ | ⟨x, e, -⟩ | ⟨e, -⟩ := hostAccess_cases a s <;> rw [e]
  case inr.inr.inr.inr.inr => exact limbsOk_protocolFault h
  all_goals exact h

theorem hostAccess_cfg (a : HostAccess) (s : State) : (hostAccess a s).cfg = s.cfg := by
  obtain e | ⟨x, e⟩ | ⟨e, -⟩ | ⟨w, e, -⟩ | ⟨x, e, -⟩ | ⟨e, -⟩ := hostAccess_cases a s <;> simp [e]

theorem limbsOk_resetAgent (s : State) : (resetAgent s).LimbsOk :=
  limbsOk_of_same (s := State.resetOf s.cfg) rfl (fun _ => rfl) (limbsOk_resetOf s.cfg)

theorem limbsOk_takeTurn {t : Turn} {u : State} (h : s.LimbsOk) (e : takeTurn t s = .next u) : u.LimbsOk := by
  cases t with
  | host a => cases e; exact limbsOk_hostAccess a h
  | unit => exact (unitMoves_of_unitTurn e).limbsOk h
  | reset => cases e; exact limbsOk_resetAgent s

end Machine

end Sys2Proof

namespace Sys2Proof.Proofs

open Sys2Proof.Machine

/-- Settles O52: a step is one agent's turn, and each agent's turn keeps the limbs. -/
theorem stepKeepsLimbInvariant : Obligations.StepKeepsLimbInvariant := by
  intro s u h e
  obtain ⟨t, s', step_eq, same⟩ := step_eq_takeTurn s
  exact limbsOk_takeTurn (limbsOk_of_same same.cfg same.reg_eq h) (step_eq ▸ e)

end Sys2Proof.Proofs
end

section
/-!
PROOFS. The run invariant under each operation (10_state.md R21 to R43), and the obligations O53, O54 and O55.
-/

namespace Sys2Proof.Machine

variable {s : State}

/-- At most one response field is set after a command (10_state.md R26 to R28). -/
theorem Response.MayBe.oneResponse {p : Response} {o : Opcode} (h : p.MayBe o) :
    (p.rel ≠ .none → p.cond = false ∧ p.ovf = false) ∧ (p.cond = true → p.ovf = false) := by
  constructor
  · intro hr
    have ho : o = .cmp := h.rel.mp hr
    subst ho
    exact ⟨by simpa using mt h.cond (by decide), by simpa using mt h.ovf (by decide)⟩
  · intro hc
    have ho : o = .eq ∨ o = .isz := by simpa using h.cond hc
    rcases ho with rfl | rfl <;> simpa using mt h.ovf (by decide)

/-- An idle state with nothing pending meets the invariant when its registers, its cause and its response do. -/
theorem inv_of_idle (hl : s.LimbsOk) (hc : s.fault = true ↔ s.cause ≠ .none) (hb : s.busy = false)
    (hp : s.pend = .none)
    (hr : (s.rel ≠ .none → s.cond = false ∧ s.ovf = false) ∧ (s.cond = true → s.ovf = false)) : s.Inv where
  limbs := hl
  causeOfFault := hc
  faultIdle := fun _ => hb
  busyIffPending := by simp [hb, hp]
  pendingIsCmd := by simp [hp]
  initIsReset := by simp [hp]
  oneResponse := hr

/-- The invariant speaks of the machine alone, not of the model's own fields. -/
theorem State.SameMachine.inv {t : State} (m : s.SameMachine t) (h : s.Inv) : t.Inv := by
  cases s
  cases t
  obtain ⟨rfl, rfl, rfl, rfl, rfl, rfl, rfl, rfl, rfl, rfl, rfl, rfl⟩ := m
  exact
    { limbs := h.limbs
      causeOfFault := h.causeOfFault
      faultIdle := h.faultIdle
      busyIffPending := h.busyIffPending
      pendingIsCmd := h.pendingIsCmd
      oneResponse := h.oneResponse
      initIsReset := fun hp => by simpa using h.initIsReset hp }

theorem State.Inv.pend_eq_none_iff (h : s.Inv) : s.pend = .none ↔ s.busy = false := by
  simpa using (not_congr h.busyIffPending).symm

theorem State.Inv.endInit (h : s.Inv) : s.endInit.Inv :=
  inv_of_idle h.limbs h.causeOfFault rfl rfl h.oneResponse

theorem State.Inv.raise (h : s.Inv) {c : Cause} (hc : c ≠ .none) : (s.raise c).Inv :=
  inv_of_idle h.limbs (by simp [hc]) rfl rfl h.oneResponse

theorem State.Inv.protocolFault (h : s.Inv) : s.protocolFault.Inv :=
  inv_of_idle (limbsOk_protocolFault h.limbs) (by simp) rfl rfl (by simpa using h.oneResponse)

theorem State.Inv.complete (h : s.Inv) {u : State} {i : Instr} {p : Response} (hu : s.OutputsOf u i)
    (hp : p.MayBe i.opcode) : (u.complete p).Inv := by
  obtain ⟨-, -, -, fault, cause, -, -, -⟩ := hu.sameOutside
  exact inv_of_idle (hu.limbs h.limbs) (by simpa [fault, cause] using h.causeOfFault) rfl rfl hp.oneResponse

theorem State.Inv.accept (h : s.Inv) (w : CmdWord) (hf : s.fault = false) : (s.accept w).Inv where
  limbs := h.limbs
  causeOfFault := h.causeOfFault
  faultIdle := by simp [hf]
  busyIffPending := by simp
  pendingIsCmd := by simp
  initIsReset := by simp
  oneResponse := h.oneResponse

theorem State.Inv.setArg (h : s.Inv) (x : Native) (hb : s.busy = false) : (s.setArg x).Inv :=
  inv_of_idle h.limbs h.causeOfFault hb (h.pend_eq_none_iff.mpr hb) h.oneResponse

/-- The reset state meets the invariant, with INIT pending (10_state.md R41). -/
theorem inv_resetOf (c : Config) : (State.resetOf c).Inv where
  limbs := limbsOk_resetOf c
  causeOfFault := by simp [State.resetOf]
  faultIdle := by simp [State.resetOf]
  busyIffPending := by simp [State.resetOf]
  pendingIsCmd := by simp [State.resetOf]
  initIsReset := fun _ => rfl
  oneResponse := by simp [State.resetOf]

/-- After reset STATUS reads 1: BUSY and nothing else (10_state.md R41). -/
theorem resetAgent_statusWord (s : State) : (resetAgent s).statusWord = 1#32 := by
  simp [State.statusWord, resetAgent, State.resetOf, Rel.code, Cause.code]

/-! ## The invariant under each agent's turn -/

theorem State.Inv.hostAccess (h : s.Inv) (a : HostAccess) : (hostAccess a s).Inv := by
  obtain e | ⟨x, e⟩ | ⟨e, -⟩ | ⟨w, e, -, hf⟩ | ⟨x, e, hb, -⟩ | ⟨e, -⟩ := hostAccess_cases a s <;> rw [e]
  · exact h
  · exact (sameMachine_deliver s x).inv h
  · exact (sameMachine_deliverFree s).inv h
  · exact h.accept w hf
  · exact h.setArg x hb
  · exact h.protocolFault

theorem State.UnitMoves.inv {t : State} (m : s.UnitMoves t) (h : s.Inv) : t.Inv := by
  cases m with
  | waits => exact h
  | endsInit => exact h.endInit
  | faults _ _ hc => exact h.raise (by rintro rfl; simp at hc)
  | completes _ _ _ hu hp => exact h.complete hu hp

/-- An enabled unit has something pending, so its turn always answers (30_encoding.md R94). -/
theorem State.Inv.unitTurn (h : s.Inv) : ∃ t, unitTurn s = .next t ∧ s.UnitMoves t := by
  obtain hm | ⟨-, he, hp⟩ := unitTurn_cases s
  · exact hm
  · obtain ⟨hb, -⟩ := State.unitEnabled_eq_true_iff.mp he
    exact absurd hp (h.busyIffPending.mp hb)

theorem State.Inv.takeTurn (h : s.Inv) (t : Turn) : ∃ u, takeTurn t s = .next u ∧ u.Inv ∧ u.cfg = s.cfg := by
  cases t with
  | host a => exact ⟨_, rfl, h.hostAccess a, hostAccess_cfg a s⟩
  | unit =>
    obtain ⟨u, e, m⟩ := h.unitTurn
    exact ⟨u, e, m.inv h, m.cfg_eq⟩
  | reset => exact ⟨_, rfl, (resetAgent_sameMachine s).inv (inv_resetOf s.cfg), rfl⟩

end Sys2Proof.Machine

namespace Sys2Proof.Proofs

open Sys2Proof.Machine

/-- Settles O53: a step is one agent's turn on the same machine, and each agent's turn answers and keeps the invariant. -/
theorem stepKeepsInvariant : Obligations.StepKeepsInvariant := by
  intro s h
  obtain ⟨t, s', step_eq, same⟩ := step_eq_takeTurn s
  obtain ⟨u, e, hu, cfg⟩ := (same.inv h).takeTurn t
  exact ⟨u, step_eq.trans e, hu, cfg.trans same.cfg⟩

/-- Settles O54: the reset turn is `resetAgent`, which takes every field from `State.resetOf`. -/
theorem resetFromAnyState : Obligations.ResetFromAnyState := by
  intro s
  refine ⟨fun r => ?_, rfl, rfl, rfl, resetAgent_statusWord s, rfl, rfl, rfl, rfl, rfl, rfl⟩
  rw [(resetAgent_sameMachine s).reg_eq, State.resetOf_reg]

/-- Settles O55: every clause of the invariant is read off the reset values. -/
theorem resetMeetsInvariant : Obligations.ResetMeetsInvariant := inv_resetOf

end Sys2Proof.Proofs
end

section
/-!
PROOFS. The host's accesses and the CSR words (10_state.md R29 to R38): which accesses are violations and what the others
do, the STATUS and CONFIG words as numbers, and the obligations O39, O45, O47, O48 and O49.
-/

theorem Sys2Proof.Cause.code_lt (c : Sys2Proof.Cause) : c.code < 8 := by cases c <;> decide

namespace Sys2Proof.Machine

variable {s : State}

/-! ## The CSR map -/

@[simp] theorem Csr.at_offset (c : Csr) : Csr.at c.offset = some c := by cases c <;> rfl

/-- An offset is some CSR's, or no CSR is listed there (10_state.md R37). -/
theorem Csr.at_cases (offset : Nat) : (∃ c : Csr, offset = c.offset) ∨ Csr.at offset = none := by
  cases hc : Csr.at offset with
  | none => exact .inr rfl
  | some c =>
    have found : c.offset = offset := by simpa using List.find?_some hc
    exact .inl ⟨c, found.symm⟩

theorem Csr.offset_ne_of_at_eq_none {offset : Nat} (h : Csr.at offset = none) (c : Csr) : offset ≠ c.offset := by
  rintro rfl
  simp at h

/-! ## Violations and permitted accesses -/

theorem violation_read_of_unlisted {offset : Nat} (h : Csr.at offset = none) (s : State) (width : Nat) :
    s.Violation (.read offset width) := by
  have ne := Csr.offset_ne_of_at_eq_none h
  exact .inl ⟨ne .cmd, ne .arg, ne .result, ne .status, ne .config⟩

theorem violation_write_of_unlisted {offset : Nat} (h : Csr.at offset = none) (s : State) (width : Nat)
    (data : Native) : s.Violation (.write offset width data) := by
  have ne := Csr.offset_ne_of_at_eq_none h
  exact .inl ⟨ne .cmd, ne .arg⟩

/-- A read of a CSR is a violation unless it has the CSR's width and the right of R38. -/
theorem violation_read_iff (s : State) (c : Csr) (width : Nat) :
    s.Violation (.read c.offset width) ↔ ¬ (width = c.width ∧ s.mayRead c = true) := by
  cases c <;> simp [State.Violation, Csr.offset, Csr.width, State.mayRead, imp_iff_not_or]

/-- A write of a CSR is a violation unless it has the CSR's width and the right of R38. -/
theorem violation_write_iff (s : State) (c : Csr) (width : Nat) (data : Native) :
    s.Violation (.write c.offset width data) ↔ ¬ (width = c.width ∧ s.mayWrite c = true) := by
  cases c <;> simp [State.Violation, Csr.offset, Csr.width, State.mayWrite, imp_iff_not_or]

/-- In the normal state a violation enters the fault state (60_exceptions.md R274). -/
theorem hostAccess_of_violation {a : HostAccess} (hf : s.fault = false) (h : s.Violation a) :
    hostAccess a s = s.protocolFault := by
  cases a with
  | read offset width =>
    obtain ⟨c, rfl⟩ | unlisted := Csr.at_cases offset
    · have denied := (violation_read_iff s c width).mp h
      simp [hostAccess, hostRead, hf, denied]
    · simp [hostAccess, hostRead, hf, unlisted]
  | write offset width data =>
    obtain ⟨c, rfl⟩ | unlisted := Csr.at_cases offset
    · have denied := (violation_write_iff s c width data).mp h
      simp [hostAccess, hostWrite, hf, denied]
    · simp [hostAccess, hostWrite, hf, unlisted]

/-- A read of the CSR's own width delivers its value where the rights of R38 allow it, and always in the fault state
(10_state.md R38, 60_exceptions.md R273). -/
theorem hostRead_of_mayRead (c : Csr) (h : s.fault = true ∨ s.mayRead c = true) :
    hostRead c.offset c.width s = s.deliver (s.csrValue c) := by
  cases hf : s.fault <;> simp_all [hostRead]

/-- A read that is no violation delivers the value of the CSR at its offset (10_state.md R38). -/
theorem hostRead_of_not_violation {c : Csr} {width : Nat} (h : ¬ s.Violation (.read c.offset width)) :
    hostRead c.offset width s = s.deliver (s.csrValue c) := by
  obtain ⟨rfl, hm⟩ := not_not.mp ((violation_read_iff s c width).not.mp h)
  exact hostRead_of_mayRead c (.inr hm)

/-- In the normal state a write that is no violation is performed (10_state.md R33, R34). -/
theorem hostWrite_of_not_violation {c : Csr} {width : Nat} {data : Native} (hf : s.fault = false)
    (h : ¬ s.Violation (.write c.offset width data)) : hostWrite c.offset width data s = s.csrWrite c data := by
  have permitted := not_not.mp ((violation_write_iff s c width data).not.mp h)
  simp [hostWrite, hf, permitted]

/-- A write of a CSR without the right to be written, as STATUS and CONFIG, is a protocol fault (10_state.md R38). -/
theorem hostWrite_of_readOnly {c : Csr} (hf : s.fault = false) (h : s.mayWrite c = false) (width : Nat)
    (data : Native) : hostWrite c.offset width data s = s.protocolFault :=
  hostAccess_of_violation (a := .write c.offset width data) hf ((violation_write_iff s c width data).mpr (by simp [h]))

theorem hostRead_sameMachine_of_not_violation {offset width : Nat} (h : ¬ s.Violation (.read offset width)) :
    s.SameMachine (hostRead offset width s) := by
  obtain ⟨c, rfl⟩ | unlisted := Csr.at_cases offset
  · exact hostRead_of_not_violation h ▸ sameMachine_deliver s _
  · exact absurd (violation_read_of_unlisted unlisted s width) h

/-- Only a 32-bit write of CMD raises BUSY (10_state.md R29, R33). -/
theorem eq_cmd_write_of_busy_rises {a : HostAccess} (hb : s.busy = false) (h : (hostAccess a s).busy = true) :
    ∃ data, a = .write 0x00 32 data := by
  obtain e | ⟨x, e⟩ | ⟨e, -⟩ | ⟨w, e, -, hf⟩ | ⟨x, e, -⟩ | ⟨e, -⟩ := hostAccess_cases a s
  case inr.inr.inr.inl =>
    have permitted : ¬ s.Violation a := fun hv => by simp [hostAccess_of_violation hf hv] at h
    cases a with
    | read offset width =>
      have busy := (hostRead_sameMachine_of_not_violation permitted).busy
      exact absurd (busy.symm.trans h) (by simp [hb])
    | write offset width data =>
      obtain ⟨c, rfl⟩ | unlisted := Csr.at_cases offset
      · obtain ⟨rfl, -⟩ := not_not.mp ((violation_write_iff s c width data).not.mp permitted)
        rw [hostAccess, hostWrite_of_not_violation hf permitted] at h
        cases c <;> simp_all [State.csrWrite, Csr.offset, Csr.width]
      · exact absurd (violation_write_of_unlisted unlisted s width data) permitted
  all_goals simp [e, hb] at h

/-- No host access changes the response fields: they change only at completion (10_state.md R29). -/
theorem hostAccess_response (a : HostAccess) (s : State) :
    (hostAccess a s).ovf = s.ovf ∧ (hostAccess a s).cond = s.cond ∧ (hostAccess a s).rel = s.rel := by
  obtain e | ⟨x, e⟩ | ⟨e, -⟩ | ⟨w, e, -⟩ | ⟨x, e, -⟩ | ⟨e, -⟩ := hostAccess_cases a s <;> simp [e]

/-- A host access that enters the fault state is a protocol fault. -/
theorem eq_protocolFault_of_fault_rises {a : HostAccess} (hf : s.fault = false) (h : (hostAccess a s).fault = true) :
    hostAccess a s = s.protocolFault := by
  obtain e | ⟨x, e⟩ | ⟨e, -⟩ | ⟨w, e, -⟩ | ⟨x, e, -⟩ | ⟨e, -⟩ := hostAccess_cases a s
  case inr.inr.inr.inr.inr => exact e
  all_goals simp [e, hf] at h

/-- A host access that changes RESULT is a protocol fault. -/
theorem eq_protocolFault_of_result_ne {a : HostAccess} (h : (hostAccess a s).result ≠ s.result) :
    hostAccess a s = s.protocolFault := by
  obtain e | ⟨x, e⟩ | ⟨e, -⟩ | ⟨w, e, -⟩ | ⟨x, e, -⟩ | ⟨e, -⟩ := hostAccess_cases a s
  case inr.inr.inr.inr.inr => exact e
  all_goals simp [e] at h

/-! ## The STATUS and CONFIG words as numbers -/

theorem getLsbD_eq_of_bit_eq {n k : Nat} {x : BitVec n} {b : Bool} (h : x.toNat / 2 ^ k % 2 = b.toNat) :
    x.getLsbD k = b := by
  rw [BitVec.getLsbD, Nat.testBit_eq_decide_div_mod_eq, h]
  cases b <;> rfl

theorem Rel.code_lt (r : Rel) : r.code < 4 := by cases r <;> decide

/-- Each field of STATUS fits its bits (10_state.md R26 to R31). -/
theorem statusFields_lt (s : State) :
    s.busy.toNat < 2 ∧ s.ovf.toNat < 2 ∧ s.cond.toNat < 2 ∧ s.rel.code < 4 ∧ s.fault.toNat < 2 ∧ s.cause.code < 8 :=
  ⟨s.busy.toNat_lt, s.ovf.toNat_lt, s.cond.toNat_lt, s.rel.code_lt, s.fault.toNat_lt, s.cause.code_lt⟩

/-- The fields of STATUS do not overlap (10_state.md R26 to R32). -/
theorem statusWord_toNat (s : State) :
    s.statusWord.toNat = s.busy.toNat + s.ovf.toNat * 2 ^ 1 + s.cond.toNat * 2 ^ 2 + s.rel.code * 2 ^ 3
      + s.fault.toNat * 2 ^ 8 + s.cause.code * 2 ^ 9 := by
  have bounds := statusFields_lt s
  rw [State.statusWord, BitVec.toNat_ofNat, Nat.mod_eq_of_lt (by omega)]

/-- The fields of CONFIG do not overlap (10_state.md R36). -/
theorem configWord_toNat (c : Config) : (configWord c).toNat = c.W + (c.N - 1) * 2 ^ 8 + 15 * 2 ^ 24 := by
  have := c.hW
  have := c.hN
  rw [configWord, BitVec.toNat_ofNat, Config.nreg, Nat.mod_eq_of_lt (by omega)]

end Sys2Proof.Machine

namespace Sys2Proof.Proofs

open Sys2Proof.Machine

/-- Settles O39: each access is decided by the rights of its CSR, and a violation is a protocol fault. -/
theorem permittedAccessesPerform : Obligations.PermittedAccessesPerform := by
  intro s hf
  refine ⟨fun offset width h => ⟨hostRead_sameMachine_of_not_violation h, ?_, ?_, ?_, ?_, ?_⟩,
    fun offset width data h => ⟨?_, ?_⟩, fun a h => ?_⟩
  · rintro rfl; exact congrArg State.readData (hostRead_of_not_violation (c := .cmd) h)
  · rintro rfl; exact congrArg State.readData (hostRead_of_not_violation (c := .arg) h)
  · rintro rfl; exact congrArg State.readData (hostRead_of_not_violation (c := .result) h)
  · rintro rfl; exact congrArg State.readData (hostRead_of_not_violation (c := .status) h)
  · rintro rfl; exact congrArg State.readData (hostRead_of_not_violation (c := .config) h)
  · rintro rfl; exact hostWrite_of_not_violation (c := .cmd) hf h
  · rintro rfl; exact hostWrite_of_not_violation (c := .arg) hf h
  · rw [hostAccess_of_violation hf h]
    exact ⟨rfl, rfl⟩

/-- Settles O45, clause by clause: of the three agents only the host and reset raise BUSY. -/
theorem busyFollowsTheCommand : Obligations.BusyFollowsTheCommand := by
  intro s u t e
  cases t with
  | reset =>
    cases e
    exact ⟨fun _ => rfl, nofun, fun _ _ => .inl rfl, nofun, nofun, fun h => absurd rfl h⟩
  | unit =>
    have m := unitMoves_of_unitTurn e
    refine ⟨nofun, nofun, fun hb hu => ?_, fun _ => m.busy_eq_false, fun hf _ => m.busy_eq_false hf, fun _ hu => ?_⟩
    · rw [m.eq_of_busy hu, hb] at hu
      cases hu
    · rw [m.eq_of_busy hu]
      exact ⟨rfl, rfl, rfl⟩
  | host a =>
    cases e
    refine ⟨nofun, fun data h hb hf => ?_, fun hb hu => .inr ?_, nofun, fun hf hu => ?_,
      fun _ _ => hostAccess_response a s⟩
    · cases h
      have permitted : ¬ s.Violation (.write 0x00 32 data) := by simp [State.Violation, hb]
      exact congrArg State.busy (hostWrite_of_not_violation (c := .cmd) hf permitted)
    · obtain ⟨data, rfl⟩ := eq_cmd_write_of_busy_rises hb hu
      exact ⟨data, rfl⟩
    · rw [eq_protocolFault_of_fault_rises hf hu]
      rfl

/-- Settles O47: the unit changes RESULT by a command that writes it, and the host only by abandoning one. -/
theorem resultChangesOnlyByTonGetl : Obligations.ResultChangesOnlyByTonGetl := by
  intro s u t e h
  cases t with
  | reset => exact .inl rfl
  | unit =>
    obtain ⟨w, i, hp, hd, hw⟩ := (unitMoves_of_unitTurn e).pending_of_result_ne h
    exact .inr ⟨w, i, hp, hd, i.writesResult_iff.mp hw, .inl rfl⟩
  | host a =>
    cases e
    have abandons := eq_protocolFault_of_result_ne h
    rw [abandons] at h ⊢
    obtain ⟨w, i, hp, hd, hw⟩ := pending_of_protocolFault_result_ne h
    exact .inr ⟨w, i, hp, hd, i.writesResult_iff.mp hw, .inr ⟨rfl, rfl⟩⟩

/-- Settles O48: the fields are the digits of STATUS as a number, and R38 lets STATUS be read always and written never. -/
theorem statusWordLayout : Obligations.StatusWordLayout := by
  intro s
  have word := statusWord_toNat s
  have read := hostRead_of_mayRead (s := s) .status (.inr rfl)
  have bounds := statusFields_lt s
  have hrel : s.statusWord.toNat / 2 ^ 3 % 4 = s.rel.code := by omega
  have hcause : s.statusWord.toNat / 2 ^ 9 % 8 = s.cause.code := by omega
  refine ⟨getLsbD_eq_of_bit_eq (by omega), getLsbD_eq_of_bit_eq (by omega), getLsbD_eq_of_bit_eq (by omega),
    hrel.trans ?_, by omega, getLsbD_eq_of_bit_eq (by omega), hcause.trans ?_, by omega, congrArg State.readData read,
    ?_, fun hf width data => congrArg State.cause (hostWrite_of_readOnly (c := .status) hf rfl width data)⟩
  · cases s.rel <;> rfl
  · cases s.cause <;> rfl
  · exact read ▸ sameMachine_deliver s _

/-- Settles O49: the fields are the digits of CONFIG as a number, and R38 lets CONFIG be read always and written never. -/
theorem configWordLayout : Obligations.ConfigWordLayout := by
  intro s
  have word := configWord_toNat s.cfg
  have read := hostRead_of_mayRead (s := s) .config (.inr rfl)
  have := s.cfg.hW
  have := s.cfg.hN
  exact ⟨by omega, by omega, by omega, by omega, rfl, congrArg State.readData read, read ▸ sameMachine_deliver s _,
    fun hf width data => congrArg State.cause (hostWrite_of_readOnly (c := .config) hf rfl width data)⟩

end Sys2Proof.Proofs
end

section
/-!
PROOFS. What a command writes and reads (10_state.md R22): the outcomes of one command in two states, and the obligation
O29.
-/

namespace Sys2Proof

open Machine

/-- `t` and `t'` agree on what the command `i` decides: whether it faults and with which cause, and if it completes, its
destinations, RESULT where it writes it, and the response. -/
structure Instr.SameOutcome (i : Instr) (t t' : State) : Prop where
  fault : t.fault = t'.fault
  cause : t.fault = true → t.cause = t'.cause
  outputs : t.fault = false → (∀ r ∈ i.dests, t.reg r = t'.reg r) ∧ (i.writesResult = true → t.result = t'.result)
    ∧ t.ovf = t'.ovf ∧ t.cond = t'.cond ∧ t.rel = t'.rel

/-- In `s` and in `s'` the command answers next states with the same outcome. -/
def Instr.AgreesOn (i : Instr) (s s' : State) : Prop :=
  ∃ t t' : State, exec i s = .next t ∧ exec i s' = .next t' ∧ i.SameOutcome t t'

namespace Machine

section

variable {i : Instr} {s s' : State}

theorem agreesOn_of_raise {c : Cause} (e : exec i s = .next (s.raise c)) (e' : exec i s' = .next (s'.raise c)) :
    i.AgreesOn s s' := ⟨_, _, e, e', rfl, fun _ => rfl, nofun⟩

theorem agreesOn_of_complete {u u' : State} {p : Response} (e : exec i s = .next (u.complete p))
    (e' : exec i s' = .next (u'.complete p)) (hf : u.fault = false) (hf' : u'.fault = false)
    (regs : ∀ r ∈ i.dests, u.reg r = u'.reg r) (result : i.writesResult = true → u.result = u'.result) :
    i.AgreesOn s s' := by
  refine ⟨_, _, e, e', hf.trans hf'.symm, fun h => ?_, fun _ => ⟨regs, result, rfl, rfl, rfl⟩⟩
  simp [hf] at h

variable (hf : s.fault = false) (hf' : s'.fault = false)
include hf hf'

theorem agreesOn_of_response {p : Response} (hd : i.dests = []) (hw : i.writesResult = false)
    (e : exec i s = .next (s.complete p)) (e' : exec i s' = .next (s'.complete p)) : i.AgreesOn s s' :=
  agreesOn_of_complete e e' hf hf' (by simp [hd]) (by simp [hw])

theorem agreesOn_of_setReg {rd : Reg} {x : List Nat} {p : Response} (hd : i.dests = [rd]) (hw : i.writesResult = false)
    (e : exec i s = .next ((s.setReg rd x).complete p)) (e' : exec i s' = .next ((s'.setReg rd x).complete p)) :
    i.AgreesOn s s' :=
  agreesOn_of_complete e e' hf hf' (by simp [hd]) (by simp [hw])

theorem agreesOn_of_setResult {x : Native} {p : Response} (hd : i.dests = [])
    (e : exec i s = .next ((s.setResult x).complete p)) (e' : exec i s' = .next ((s'.setResult x).complete p)) :
    i.AgreesOn s s' :=
  agreesOn_of_complete e e' hf hf' (by simp [hd]) fun _ => rfl

omit hf hf' in
/-- A division faults in both states or in neither, for the divisor's value decides (30_encoding.md R94). -/
theorem agreesOn_of_divided {rs2 : Reg} {u u' : State} (e : exec i s = s.divided rs2 u)
    (e' : exec i s' = s'.divided rs2 u') (hu : u.fault = false) (hu' : u'.fault = false)
    (hz : s.value rs2 = s'.value rs2) (hw : i.writesResult = false) (regs : ∀ r ∈ i.dests, u.reg r = u'.reg r) :
    i.AgreesOn s s' := by
  by_cases h : s'.value rs2 = 0
  · exact agreesOn_of_raise (c := .divideByZero) (by simp [e, State.divided, State.divisorZero, hz, h])
      (by simp [e', State.divided, State.divisorZero, h])
  · exact agreesOn_of_complete (u := u) (u' := u') (p := .clear) (by simp [e, State.divided, State.divisorZero, hz, h])
      (by simp [e', State.divided, State.divisorZero, h]) hu hu' regs (by simp [hw])

/-- A command's outcome is a function of W and N, its source registers and, where it reads it, ARG (10_state.md R22). -/
theorem agreesOn_of_same_sources (hc : s.cfg = s'.cfg) (hs : ∀ r ∈ i.sources, s.reg r = s'.reg r)
    (ha : i.readsArg = true → s.arg = s'.arg) : i.AgreesOn s s' := by
  have value_eq : ∀ r ∈ i.sources, s.value r = s'.value r := fun r hr => by
    rw [State.value, State.value, hc, hs r hr]
  have encode_eq : s.encode = s'.encode := by
    funext x
    rw [State.encode, State.encode, hc]
  have argv_eq : i.readsArg = true → s.argv = s'.argv := fun h => congrArg BitVec.toNat (ha h)
  have write {rd : Reg} {x : List Nat} {p : Response} := agreesOn_of_setReg (i := i) (rd := rd) (x := x) (p := p) hf hf'
  cases i with
  | nop => exact agreesOn_of_response hf hf' rfl rfl rfl rfl
  | clr rd => exact write rfl rfl rfl (by rw [encode_eq]; rfl)
  | mov rd rs1 => exact write rfl rfl rfl (by rw [hs rs1 (.head _)]; rfl)
  | ldn rd => exact write rfl rfl rfl (by rw [encode_eq, argv_eq rfl, hc]; rfl)
  | ton rs1 => exact agreesOn_of_setResult hf hf' rfl rfl (by rw [value_eq rs1 (.head _)]; rfl)
  | setl r idx =>
    by_cases h : s'.cfg.N ≤ idx.val
    · exact agreesOn_of_raise (c := .badLimbIndex) (by simp [exec, execSetl, hc, h]) (by simp [exec, execSetl, h])
    · refine write rfl rfl (by rw [exec, execSetl, if_neg (hc ▸ h)]; rfl) ?_
      rw [hs r (.head _), argv_eq rfl, hc, exec, execSetl, if_neg h]
      rfl
  | getl r idx =>
    by_cases h : s'.cfg.N ≤ idx.val
    · exact agreesOn_of_raise (c := .badLimbIndex) (by simp [exec, execGetl, hc, h]) (by simp [exec, execGetl, h])
    · refine agreesOn_of_setResult hf hf' rfl (by rw [exec, execGetl, if_neg (hc ▸ h)]) ?_
      rw [State.limb, hs r (.head _), exec, execGetl, if_neg h]
      rfl
  | cmp rs1 rs2 =>
    exact agreesOn_of_response hf hf' rfl rfl rfl
      (by rw [hs rs1 (.head _), hs rs2 (.tail _ (.head _))]; rfl)
  | eq rs1 rs2 =>
    exact agreesOn_of_response hf hf' rfl rfl rfl
      (by rw [hs rs1 (.head _), hs rs2 (.tail _ (.head _))]; rfl)
  | isz rs1 => exact agreesOn_of_response hf hf' rfl rfl rfl (by rw [hs rs1 (.head _)]; rfl)
  | add rd rs1 rs2 => exact write rfl rfl rfl (by rw [hc, hs rs1 (.head _), hs rs2 (.tail _ (.head _))]; rfl)
  | sub rd rs1 rs2 => exact write rfl rfl rfl (by rw [hc, hs rs1 (.head _), hs rs2 (.tail _ (.head _))]; rfl)
  | inc rd rs1 => exact write rfl rfl rfl (by rw [hc, hs rs1 (.head _)]; rfl)
  | dec rd rs1 => exact write rfl rfl rfl (by rw [hc, hs rs1 (.head _)]; rfl)
  | mul rd rs1 rs2 =>
    refine write rfl rfl rfl ?_
    rw [encode_eq, hc, value_eq rs1 (.head _), value_eq rs2 (.tail _ (.head _)), hs rs1 (.head _),
      hs rs2 (.tail _ (.head _))]
    rfl
  | divmod rd rd2 rs1 rs2 =>
    by_cases h : rd = rd2
    · exact agreesOn_of_raise (c := .operandConflict) (by simp [exec, execDivmod, h]) (by simp [exec, execDivmod, h])
    · have run (t : State) : exec (.divmod rd rd2 rs1 rs2) t = t.divided rs2
          ((t.setReg rd (t.encode (t.value rs1 / t.value rs2))).setReg rd2 (t.encode (t.value rs1 % t.value rs2))) :=
        if_neg h
      refine agreesOn_of_divided (run s) (run s') hf hf' (value_eq rs2 (.tail _ (.head _))) rfl fun r hr => ?_
      rw [encode_eq, value_eq rs1 (.head _), value_eq rs2 (.tail _ (.head _))]
      obtain rfl | rfl : r = rd ∨ r = rd2 := by simpa [Instr.dests] using hr
      · simp [State.setReg_reg_ne _ _ _ h]
      · simp
  | div rd rs1 rs2 =>
    refine agreesOn_of_divided rfl rfl hf hf' (value_eq rs2 (.tail _ (.head _))) rfl ?_
    simp [Instr.dests, encode_eq, value_eq rs1 (.head _), value_eq rs2 (.tail _ (.head _))]
  | mod rd rs1 rs2 =>
    refine agreesOn_of_divided rfl rfl hf hf' (value_eq rs2 (.tail _ (.head _))) rfl ?_
    simp [Instr.dests, encode_eq, value_eq rs1 (.head _), value_eq rs2 (.tail _ (.head _))]
  | and rd rs1 rs2 => exact write rfl rfl rfl (by rw [hs rs1 (.head _), hs rs2 (.tail _ (.head _))]; rfl)
  | or rd rs1 rs2 => exact write rfl rfl rfl (by rw [hs rs1 (.head _), hs rs2 (.tail _ (.head _))]; rfl)
  | xor rd rs1 rs2 => exact write rfl rfl rfl (by rw [hs rs1 (.head _), hs rs2 (.tail _ (.head _))]; rfl)
  | shl rd rs1 => exact write rfl rfl rfl (by rw [hc, argv_eq rfl, hs rs1 (.head _)]; rfl)
  | shr rd rs1 => exact write rfl rfl rfl (by rw [hc, argv_eq rfl, hs rs1 (.head _)]; rfl)

end

/-- A command changes only its row's registers, RESULT for TON and GETL, the response fields, BUSY, FAULT, CAUSE and PEND
(10_state.md R22). -/
theorem exec_frame {i : Instr} {s t : State} (e : exec i s = .next t) :
    s.RegsKept t i.dests ∧ (i.writesResult = false → t.result = s.result) ∧ t.cfg = s.cfg ∧ t.cmd = s.cmd
      ∧ t.arg = s.arg ∧ t.turns = s.turns ∧ t.readData = s.readData ∧ t.freeCount = s.freeCount := by
  obtain ⟨c, -, e'⟩ | ⟨u, p, e', hu, -⟩ := exec_shape i s
  · cases e'.symm.trans e
    exact ⟨fun _ _ => rfl, fun _ => rfl, rfl, rfl, rfl, rfl, rfl, rfl⟩
  · cases e'.symm.trans e
    obtain ⟨cfg, cmd, arg, -, -, turns, readData, freeCount⟩ := hu.sameOutside
    exact ⟨hu.regs, hu.result, cfg, cmd, arg, turns, readData, freeCount⟩

end Machine

end Sys2Proof

namespace Sys2Proof.Proofs

open Sys2Proof.Machine

/-- Settles O29: the frame is read off the two shapes of an outcome, and each outcome is a function of the sources. -/
theorem commandReadsAndWritesItsRow : Obligations.CommandReadsAndWritesItsRow := by
  refine ⟨fun i s t e => exec_frame e, fun i s s' hc hf hf' hs ha => ?_⟩
  obtain ⟨t, t', e, e', same⟩ := agreesOn_of_same_sources hf hf' hc hs ha
  exact ⟨t, t', e, e', same.fault, same.cause, same.outputs⟩

end Sys2Proof.Proofs
end

section
/-!
PROOFS. What the host sees of the registers (20_memory.md R61, R65, R66): decoding an encoded word, a CMD write with the
unit's turn after it, accesses while BUSY = 1 and repeated accesses, and the obligations O43, O44 and O58.
-/

namespace Sys2Proof

open Sys2Proof.Laws

/-! ## Decoding an encoded word -/

/-- The operands of a command are the fields of its word (30_encoding.md R82, R83). -/
theorem assemble_encode (i : Instr) : assemble i.opcode (encode i) = i := by
  cases i <;> simp [Instr.opcode, encode, assemble, formatR_fields, formatL_fields]

/-- The word of a command decodes to it when its operands pass their checks (30_encoding.md R90). -/
theorem decode_encode {n : Nat} {i : Instr} (hw : EncodedWord.Statement i) (ho : operandCause n i = none) :
    decode n (encode i) = .ok i := by
  obtain ⟨code, mask⟩ := hw
  simp [decode, code, ofCode_code, mask, assemble_encode, ho]

namespace Machine

variable {s : State}

/-! ## INC, and a command from its CMD write to its end -/

theorem incLimbs_val_mod {b : Nat} (hb : 0 < b) {l : List Nat} (hl : ∀ x ∈ l, x < b) :
    val b (incLimbs b l).1 = (val b l + 1) % b ^ l.length := by
  obtain ⟨sum, -⟩ := incLimbs_val hl
  have fits := val_lt (incLimbs_lt hb hl)
  rw [incLimbs_length] at fits
  rw [← sum, Nat.add_mul_mod_self_left, Nat.mod_eq_of_lt fits]

/-- INC completes and adds one mod BASE^N (42_additive.md R132). -/
theorem exec_inc (h : s.LimbsOk) (rd rs1 : Reg) : ∃ t p, exec (.inc rd rs1) s = .next t ∧ s.Completed t [rd] p
    ∧ t.value rd = (s.value rs1 + 1) % s.cfg.modulus := by
  obtain ⟨hlen, hlt⟩ := h rs1
  refine ⟨(s.setReg rd (incLimbs s.cfg.base (s.reg rs1)).1).complete _, _, rfl,
    setReg_completed h rd (by rw [incLimbs_length, hlen]) (incLimbs_lt s.cfg.base_pos hlt) _, ?_⟩
  rw [State.complete_value, State.setReg_value_self, incLimbs_val_mod s.cfg.base_pos hlt, hlen]
  rfl

/-- A word that decodes, written to CMD of an idle machine, is run at the unit's turn (10_state.md R33,
30_encoding.md R94). -/
theorem unitTurn_hostAccess_cmd {data : Native} {i : Instr} (hb : s.busy = false) (hf : s.fault = false)
    (hd : decode s.cfg.N (data.setWidth 32) = .ok i) :
    unitTurn (hostAccess (.write 0x00 32 data) s) = exec i (s.accept (data.setWidth 32)) := by
  have permitted : ¬ s.Violation (.write Csr.cmd.offset 32 data) := by
    simp [violation_write_iff, State.mayWrite, hb, Csr.width]
  have accepted : hostAccess (.write 0x00 32 data) s = s.accept (data.setWidth 32) :=
    hostWrite_of_not_violation hf permitted
  simp [accepted, unitTurn, State.unitEnabled, hf, unitStep, hd]

/-- The data of a CMD write that carry the word of INC r, r (30_encoding.md R82). -/
theorem setWidth_inc_data (r : Reg) :
    (BitVec.ofNat 64 (0x12 + r.val * 2 ^ 6 + r.val * 2 ^ 10)).setWidth 32 = encode (.inc r r) := by
  have := r.isLt
  apply BitVec.eq_of_toNat_eq
  simp only [encode, formatR, Opcode.code, BitVec.toNat_setWidth, BitVec.toNat_ofNat, Fin.val_zero]
  omega

/-- INC r, r written to CMD of an idle machine and run leaves an idle machine with one more in r. -/
theorem unitTurn_inc_write (h : s.LimbsOk) (hb : s.busy = false) (hf : s.fault = false) (r : Reg) :
    ∃ t, unitTurn (hostAccess (.write 0x00 32 (BitVec.ofNat 64 (0x12 + r.val * 2 ^ 6 + r.val * 2 ^ 10))) s) = .next t
      ∧ t.LimbsOk ∧ t.busy = false ∧ t.fault = false ∧ t.cfg = s.cfg
      ∧ t.value r = (s.value r + 1) % s.cfg.modulus := by
  have run := unitTurn_hostAccess_cmd hb hf
    (setWidth_inc_data r ▸ decode_encode (n := s.cfg.N) (EncodedWord.inc r r) rfl)
  obtain ⟨t, p, e, completed, value⟩ := exec_inc (s := s.accept _) h r r
  obtain ⟨cfg, -, -, fault, -⟩ := completed.rest
  exact ⟨t, run.trans e, completed.limbs, completed.notBusy, fault.trans hf, cfg, value⟩

/-! ## Repeated accesses -/

/-- A delivery changes nothing that a read returns (20_memory.md R66). -/
@[simp] theorem State.deliver_csrValue (s : State) (x : Native) (c : Csr) :
    (s.deliver x).csrValue c = s.csrValue c := by cases c <;> rfl

/-- A permitted read done twice delivers the same data as once (20_memory.md R66). -/
theorem hostRead_hostRead {offset width : Nat} (h : ¬ s.Violation (.read offset width)) :
    hostRead offset width (hostRead offset width s) = hostRead offset width s := by
  obtain ⟨c, rfl⟩ | unlisted := Csr.at_cases offset
  · have again : ¬ (s.deliver (s.csrValue c)).Violation (.read c.offset width) := h
    rw [hostRead_of_not_violation h, hostRead_of_not_violation again, State.deliver_csrValue]
    rfl
  · exact absurd (violation_read_of_unlisted unlisted s width) h

/-- A permitted ARG write done twice is one ARG write (20_memory.md R66). -/
theorem hostWrite_arg_hostWrite_arg {width : Nat} {data : Native} (hf : s.fault = false)
    (h : ¬ s.Violation (.write Csr.arg.offset width data)) :
    hostWrite Csr.arg.offset width data (hostWrite Csr.arg.offset width data s)
      = hostWrite Csr.arg.offset width data s := by
  have again : ¬ (s.setArg data).Violation (.write Csr.arg.offset width data) := h
  have once : hostWrite Csr.arg.offset width data s = s.setArg data := hostWrite_of_not_violation hf h
  rw [once]
  exact hostWrite_of_not_violation hf again

/-! ## Accesses while BUSY = 1 -/

/-- While BUSY = 1 every write is a violation (10_state.md R38). -/
theorem violation_write_of_busy (hb : s.busy = true) (offset width : Nat) (data : Native) :
    s.Violation (.write offset width data) := by
  obtain ⟨c, rfl⟩ | unlisted := Csr.at_cases offset
  · have denied : s.mayWrite c = false := by cases c <;> simp [State.mayWrite, hb]
    simp [violation_write_iff, denied]
  · exact violation_write_of_unlisted unlisted s width data

/-- `s` with other contents in the places a running command may be working on: V, ARG and RESULT (20_memory.md R65). -/
def State.withData (s : State) (v : Vector (List Nat) 16) (arg result : Native) : State :=
  { s with v := v, arg := arg, result := result }

section

variable (v : Vector (List Nat) 16) (arg result : Native)

/-- Whether an access is a violation does not depend on V, ARG and RESULT (10_state.md R38). -/
theorem violation_withData_iff (a : HostAccess) : (s.withData v arg result).Violation a ↔ s.Violation a := by
  cases a <;> rfl

/-- A CSR that may be read while BUSY = 1 shows nothing of V, ARG and RESULT (10_state.md R38). -/
theorem csrValue_withData_of_mayRead (hb : s.busy = true) {c : Csr} (hc : s.mayRead c = true) :
    (s.withData v arg result).csrValue c = s.csrValue c := by
  cases c with
  | cmd | status | config => rfl
  | arg | result => simp [State.mayRead, hb] at hc

/-- STATUS after a violation, whatever V, ARG and RESULT are and whatever is abandoned (60_exceptions.md R271). -/
theorem protocolFault_withData_statusWord :
    (s.withData v arg result).protocolFault.statusWord = s.protocolFault.statusWord := by
  simp [State.statusWord, State.withData]

end

end Machine

end Sys2Proof

namespace Sys2Proof.Proofs

open Sys2Proof.Machine

/-- Settles O43: while BUSY = 1 an access is a violation, which delivers nothing, or a read of CMD, STATUS or CONFIG. -/
theorem busyHidesPartialResults : Obligations.BusyHidesPartialResults := by
  intro s s' a hb hf differ
  generalize s'.v = v, s'.arg = arg, s'.result = result at differ
  change s' = s.withData v arg result at differ
  subst differ
  by_cases hv : s.Violation a
  · have hv' : (s.withData v arg result).Violation a := (violation_withData_iff v arg result a).mpr hv
    have hf' : (s.withData v arg result).fault = false := hf
    rw [hostAccess_of_violation hf hv, hostAccess_of_violation hf' hv', protocolFault_withData_statusWord]
    simp [State.withData]
  · cases a with
    | write offset width data => exact absurd (violation_write_of_busy hb offset width data) hv
    | read offset width =>
      obtain ⟨c, rfl⟩ | unlisted := Csr.at_cases offset
      · have hv' := (violation_withData_iff v arg result _).not.mpr hv
        obtain ⟨-, mayRead⟩ := not_not.mp ((violation_read_iff s c width).not.mp hv)
        rw [hostAccess, hostAccess, hostRead_of_not_violation hv, hostRead_of_not_violation hv',
          csrValue_withData_of_mayRead v arg result hb mayRead]
        exact ⟨rfl, rfl, rfl⟩
      · exact absurd (violation_read_of_unlisted unlisted s width) hv

/-- Settles O44: a repeated read or ARG write finds what the first one left; each INC word adds one. -/
theorem readsAreIdempotentCommandsAreNot : Obligations.ReadsAreIdempotentCommandsAreNot := by
  refine ⟨fun s offset width h _ => ⟨hostRead_sameMachine_of_not_violation h, ?_⟩, ?_, fun s r h hb hf => ?_⟩
  · rw [hostRead_hostRead h]
  · rintro s _ width data rfl h hf
    exact hostWrite_arg_hostWrite_arg hf h
  · obtain ⟨t, run, ht, tb, tf, cfg, first⟩ := unitTurn_inc_write h hb hf r
    obtain ⟨u, run', -, -, -, -, second⟩ := unitTurn_inc_write ht tb tf r
    refine ⟨t, u, run, run', ?_⟩
    rw [second, first, cfg, Nat.mod_add_mod]

/-- Settles O58: the limbs are the base-2^W digits of the value, so the bits of the value are theirs in order. -/
theorem limbBitsAreValueBits : Obligations.LimbBitsAreValueBits := by
  intro s r i b h _ hb
  obtain ⟨limb, bit⟩ := div_mod_of_digit hb i
  have bits := val_testBit (s.reg r) (h r).2 (Nat.zero_lt_of_lt hb) (b + s.cfg.W * i)
  rw [limb, bit, Nat.add_comm, Nat.mul_comm] at bits
  exact bits.symm

end Sys2Proof.Proofs
end

section
/-!
PROOFS. The encoding both ways (30_encoding.md R80 to R90): the checks of decoding one by one, the word of a command and
the command of a word, and the obligations O32, O33, O34 and O35.
-/

namespace Sys2Proof

open Sys2Proof.Laws

/-! ## Opcodes and fields -/

/-- No two opcodes share a code (30_encoding.md R85). -/
theorem Opcode.code_injective : Function.Injective Opcode.code := fun o o' h => by
  simpa [ofCode_code] using congrArg Opcode.ofCode h

theorem Opcode.code_lt (o : Opcode) : o.code < 2 ^ 6 := by cases o <;> decide

theorem field_opcode (w : CmdWord) : field w 0 6 = w.toNat % 64 := by simp [field]

theorem regField_eq_iff (w : CmdWord) (lo lo' : Nat) :
    regField w lo = regField w lo' ↔ w.toNat / 2 ^ lo % 16 = w.toNat / 2 ^ lo' % 16 := by
  simp [regField, field, Fin.ext_iff]

theorem idxField_val (w : CmdWord) : (idxField w).val = w.toNat / 2 ^ 16 := by
  have := w.isLt
  simp only [idxField, field, Fin.ofNat]
  omega

/-- Above the opcode a pattern has only zeros (30_encoding.md R86). -/
theorem field_pattern (o : Opcode) {lo : Nat} (hlo : 6 ≤ lo) (len : Nat) : field o.pattern lo len = 0 := by
  have high : o.code / 2 ^ lo = 0 :=
    Nat.div_eq_of_lt (o.code_lt.trans_le (Nat.pow_le_pow_right (by decide) hlo))
  have fits : o.code < 2 ^ 32 := o.code_lt.trans (by decide)
  rw [field, Opcode.pattern, BitVec.toNat_ofNat, Nat.mod_eq_of_lt fits, high, Nat.zero_mod]

/-- A field that the opcode's mask reserves is 0 in a matching word (30_encoding.md R86). -/
theorem field_eq_zero_of_reserved {o : Opcode} {w : CmdWord} (hm : w &&& o.mask = o.pattern) {lo len : Nat}
    (hlo : 6 ≤ lo) (reserved : o.mask.extractLsb' lo len = BitVec.allOnes len) : field w lo len = 0 :=
  (field_of_mask hm lo len reserved).trans (field_pattern o hlo len)

/-! ## The operand checks -/

/-- The operands of a command pass their checks exactly when it is well-formed (30_encoding.md R90). -/
theorem operandCause_eq_none_iff (n : Nat) (i : Instr) : operandCause n i = none ↔ i.wellFormed n = true := by
  cases i with
  | divmod rd rd2 rs1 rs2 => simp [operandCause, Instr.wellFormed]
  | setl r idx => simp [operandCause, Instr.wellFormed]
  | getl r idx => simp [operandCause, Instr.wellFormed]
  | _ => exact iff_of_true rfl rfl

/-- The operand checks on a word's fields: DIVMOD's two destinations, then the limb index (30_encoding.md R90). -/
theorem operandCause_assemble (n : Nat) (o : Opcode) (w : CmdWord) : operandCause n (assemble o w) =
    if o = .divmod ∧ regField w 6 = regField w 18 then some .operandConflict
    else if (o = .setl ∨ o = .getl) ∧ n ≤ (idxField w).val then some .badLimbIndex
    else none := by
  cases o <;> simp [assemble, operandCause]

/-! ## Decoding, check by check -/

section

variable {n : Nat} {w : CmdWord} {o : Opcode}

theorem decode_of_unassigned (h : ∀ o : Opcode, field w 0 6 ≠ o.code) : decode n w = .error .illegalOpcode := by
  have unassigned : Opcode.ofCode (field w 0 6) = none :=
    Option.eq_none_iff_forall_ne_some.mpr fun o ho => h o (code_of_ofCode ho).symm
  simp [decode, unassigned]

theorem decode_of_mismatch (hc : field w 0 6 = o.code) (hm : w &&& o.mask ≠ o.pattern) :
    decode n w = .error .reservedNonzero := by
  simp [decode, hc, ofCode_code, hm]

theorem decode_of_operandCause {c : Cause} (hc : field w 0 6 = o.code) (hm : w &&& o.mask = o.pattern)
    (h : operandCause n (assemble o w) = some c) : decode n w = .error c := by
  simp [decode, hc, ofCode_code, hm, h]

theorem decode_of_match (hc : field w 0 6 = o.code) (hm : w &&& o.mask = o.pattern)
    (h : operandCause n (assemble o w) = none) : decode n w = .ok (assemble o w) := by
  simp [decode, hc, ofCode_code, hm, h]

/-- A word that decodes has passed every check (30_encoding.md R90). -/
theorem checks_of_decode_eq_ok {i : Instr} (h : decode n w = .ok i) :
    ∃ o : Opcode, field w 0 6 = o.code ∧ w &&& o.mask = o.pattern ∧ operandCause n i = none ∧ i = assemble o w := by
  by_cases assigned : ∃ o : Opcode, field w 0 6 = o.code
  · obtain ⟨o, hc⟩ := assigned
    by_cases hm : w &&& o.mask = o.pattern
    · cases operands : operandCause n (assemble o w) with
      | some c => simp [decode_of_operandCause hc hm operands] at h
      | none =>
        obtain rfl : assemble o w = i := by simpa [decode_of_match hc hm operands] using h
        exact ⟨o, hc, hm, operands, rfl⟩
    · simp [decode_of_mismatch hc hm] at h
  · simp [decode_of_unassigned (not_exists.mp assigned)] at h

end

/-! ## The word of an assembled command -/

theorem opcode_assemble (o : Opcode) (w : CmdWord) : (assemble o w).opcode = o := by cases o <;> rfl

/-- The register at `lo` that the word of an opcode's command carries: V0 where the mask reserves the field
(30_encoding.md R86). -/
def Opcode.operand (o : Opcode) (w : CmdWord) (lo : Nat) : Reg :=
  if o.mask.extractLsb' lo 4 = BitVec.allOnes 4 then 0 else regField w lo

/-- In a matching word a reserved register field holds the 0 that its command's word carries there. -/
theorem Opcode.operand_eq_regField {o : Opcode} {w : CmdWord} (hm : w &&& o.mask = o.pattern) {lo : Nat}
    (hlo : 6 ≤ lo) : o.operand w lo = regField w lo := by
  unfold Opcode.operand
  split
  · rename_i reserved
    exact (regField_zero (field_eq_zero_of_reserved hm hlo reserved)).symm
  · rfl

/-- SETL and GETL are of format L, every other command of format R with bits 31:22 reserved (30_encoding.md R82, R83). -/
theorem encode_assemble_format (o : Opcode) (w : CmdWord) :
    (encode (assemble o w) = formatL o (regField w 6) (idxField w)
        ∧ o.mask.extractLsb' 10 6 = BitVec.allOnes 6)
      ∨ (encode (assemble o w) = formatR o (o.operand w 6) (o.operand w 10) (o.operand w 14) (o.operand w 18)
        ∧ o.mask.extractLsb' 22 10 = BitVec.allOnes 10) := by
  cases o with
  | setl | getl => exact .inl ⟨rfl, by decide⟩
  | _ => exact .inr ⟨rfl, by decide⟩

/-- A matching word is the word of its command: every bit is the opcode's, an operand's or a reserved 0
(30_encoding.md R86). -/
theorem encode_assemble {o : Opcode} {w : CmdWord} (hc : field w 0 6 = o.code) (hm : w &&& o.mask = o.pattern) :
    encode (assemble o w) = w := by
  obtain ⟨word, reserved⟩ | ⟨word, reserved⟩ := encode_assemble_format o w
  · rw [word, formatL_of_fields hc (field_eq_zero_of_reserved hm (by decide) reserved)]
  · rw [word, Opcode.operand_eq_regField hm (by decide), Opcode.operand_eq_regField hm (by decide),
      Opcode.operand_eq_regField hm (by decide), Opcode.operand_eq_regField hm (by decide),
      formatR_of_fields hc (field_eq_zero_of_reserved hm (by decide) reserved)]

/-- Every command's word has the command's opcode and matches under its mask (30_encoding.md R86). -/
theorem encodedWord : ∀ i : Instr, EncodedWord.Statement i
  | .nop => EncodedWord.nop
  | .clr _ => EncodedWord.clr _
  | .mov _ _ => EncodedWord.mov _ _
  | .ldn _ => EncodedWord.ldn _
  | .ton _ => EncodedWord.ton _
  | .setl _ _ => EncodedWord.setl _ _
  | .getl _ _ => EncodedWord.getl _ _
  | .cmp _ _ => EncodedWord.cmp _ _
  | .eq _ _ => EncodedWord.eq _ _
  | .isz _ => EncodedWord.isz _
  | .add _ _ _ => EncodedWord.add _ _ _
  | .sub _ _ _ => EncodedWord.sub _ _ _
  | .inc _ _ => EncodedWord.inc _ _
  | .dec _ _ => EncodedWord.dec _ _
  | .mul _ _ _ => EncodedWord.mul _ _ _
  | .divmod _ _ _ _ => EncodedWord.divmod _ _ _ _
  | .div _ _ _ => EncodedWord.div _ _ _
  | .mod _ _ _ => EncodedWord.mod _ _ _
  | .and _ _ _ => EncodedWord.and _ _ _
  | .or _ _ _ => EncodedWord.or _ _ _
  | .xor _ _ _ => EncodedWord.xor _ _ _
  | .shl _ _ => EncodedWord.shl _ _
  | .shr _ _ => EncodedWord.shr _ _

end Sys2Proof

namespace Sys2Proof.Proofs

open Sys2Proof.Laws

/-- Settles O32: the word passes the opcode and mask checks, and well-formed operands pass theirs. -/
theorem decodeOfEncode : Obligations.DecodeOfEncode := fun n i h =>
  decode_encode (encodedWord i) ((operandCause_eq_none_iff n i).mpr h)

/-- Settles O33: a word that decodes matches under its opcode's mask, which leaves no bit out. -/
theorem encodeOfDecode : Obligations.EncodeOfDecode := by
  intro n w i h
  obtain ⟨o, hc, hm, operands, rfl⟩ := checks_of_decode_eq_ok h
  exact ⟨encode_assemble hc hm, (operandCause_eq_none_iff n _).mp operands⟩

/-- Settles O34: the rows of the table are the opcodes with their masks, and each clause is one check on the fields. -/
theorem decodeCausesInOrder : Obligations.DecodeCausesInOrder := by
  have rows (o : Opcode) : o ∈ Opcode.all := by cases o <;> decide
  intro n w
  simp only [← field_opcode, ← regField_eq_iff, ← idxField_val]
  refine ⟨fun h => decode_of_unassigned fun o => h (o.code, o.mask) ?_, fun row hrow hc => ?_⟩
  · exact List.mem_map_of_mem (f := fun o => (o.code, o.mask)) (rows o)
  obtain ⟨o, -, rfl⟩ : ∃ o ∈ Opcode.all, (o.code, o.mask) = row := List.mem_map.mp hrow
  refine ⟨decode_of_mismatch hc, fun hm => ?_⟩
  have divmod : o.code = 0x1C ↔ o = .divmod := Opcode.code_injective.eq_iff' rfl
  have setl : o.code = 0x05 ↔ o = .setl := Opcode.code_injective.eq_iff' rfl
  have getl : o.code = 0x06 ↔ o = .getl := Opcode.code_injective.eq_iff' rfl
  have operands := operandCause_assemble n o w
  simp only [divmod, setl, getl]
  refine ⟨fun ho same => ?_, fun ho large => ?_, fun distinct small => ?_⟩
  · exact decode_of_operandCause hc hm (operands.trans (if_pos ⟨ho, same⟩))
  · have not_divmod : ¬ (o = .divmod ∧ regField w 6 = regField w 18) := by rcases ho with rfl | rfl <;> simp
    exact decode_of_operandCause hc hm (operands.trans ((if_neg not_divmod).trans (if_pos ⟨ho, large⟩)))
  · exact ⟨_, decode_of_match hc hm (operands.trans ((if_neg distinct).trans (if_neg small))),
      congrArg Opcode.code (opcode_assemble o w), encode_assemble hc hm⟩

/-- Settles O35: each word is the word of its command, which is well-formed at N = 2. -/
theorem sampleWordsDecode : Obligations.SampleWordsDecode :=
  ⟨decodeOfEncode 2 (.add 3 1 2) rfl, decodeOfEncode 2 (.divmod 3 4 1 2) rfl, decodeOfEncode 2 (.setl 4 1) rfl,
    decodeOfEncode 2 (.cmp 1 2) rfl, decodeOfEncode 2 (.mul 3 1 2) rfl, decodeOfEncode 2 (.shr 3 1) rfl⟩

end Sys2Proof.Proofs
end

section
/-!
PROOFS. Commands at their end (30_encoding.md R94 to R98): the unit's turn on each pending word, two commands that write
the same to different registers, the relations read from STATUS, and the obligations O28, O30, O36 and O60.
-/

namespace Sys2Proof.Machine

variable {s : State}

/-! ## The unit's turn, case by case -/

/-- With the unit's turn listed first, or with none listed, a step is the unit's turn past it (log 2). -/
theorem step_eq_unitTurn {ts : List Turn} (h : (s.turns = [] ∧ ts = []) ∨ s.turns = .unit :: ts) :
    step s = unitTurn (s.setTurns ts) := by
  obtain ⟨unlisted, rfl⟩ | listed := h
  · have same : s.setTurns [] = s := by rw [State.setTurns, ← unlisted]
    rw [same, step, unlisted]
  · rw [step, listed]
    rfl

theorem unitTurn_of_not_enabled (h : ¬ (s.busy = true ∧ s.fault = false)) : unitTurn s = .next s :=
  if_neg (State.unitEnabled_eq_true_iff.not.mpr h)

theorem unitTurn_of_enabled (hb : s.busy = true) (hf : s.fault = false) : unitTurn s = unitStep s :=
  if_pos (State.unitEnabled_eq_true_iff.mpr ⟨hb, hf⟩)

theorem unitStep_of_init (hp : s.pend = .init) : unitStep s = .next s.endInit := by simp [unitStep, hp]

section

variable {w : CmdWord}

theorem unitStep_of_decode_ok (hp : s.pend = .command w) {i : Instr} (hd : decode s.cfg.N w = .ok i) :
    unitStep s = exec i s := by
  simp [unitStep, hp, hd]

theorem unitStep_of_decode_error (hp : s.pend = .command w) {c : Cause} (hd : decode s.cfg.N w = .error c) :
    unitStep s = .next (s.raise c) := by
  simp [unitStep, hp, hd]

end

/-! ## Commands that differ in their destinations -/

/-- In `s` the commands `i` and `j` have one outcome, but that `j` writes to `d'` what `i` writes to `d`. -/
def State.WritesAlike (s : State) (i j : Instr) (d d' : Reg) : Prop :=
  ∃ t u : State, exec i s = .next t ∧ exec j s = .next u ∧ (t.fault = false → t.reg d = u.reg d')
    ∧ t.ovf = u.ovf ∧ t.cond = u.cond ∧ t.rel = u.rel ∧ t.fault = u.fault ∧ t.cause = u.cause

section

variable {i j : Instr} {d d' : Reg}

theorem writesAlike_of_setReg {x : List Nat} {p : Response} (hi : exec i s = .next ((s.setReg d x).complete p))
    (hj : exec j s = .next ((s.setReg d' x).complete p)) : s.WritesAlike i j d d' :=
  ⟨_, _, hi, hj, fun _ => by simp, rfl, rfl, rfl, rfl, rfl⟩

/-- A division faults whatever its destinations are, for the divisor decides (30_encoding.md R94). -/
theorem writesAlike_of_divided {b : Reg} {t u : State} (hi : exec i s = s.divided b t) (hj : exec j s = s.divided b u)
    (reg : t.reg d = u.reg d') (fault : t.fault = u.fault) (cause : t.cause = u.cause) : s.WritesAlike i j d d' := by
  cases hz : s.divisorZero b with
  | true =>
    have faults (t : State) : s.divided b t = .next (s.raise .divideByZero) := if_pos hz
    exact ⟨_, _, hi.trans (faults t), hj.trans (faults u), nofun, rfl, rfl, rfl, rfl, rfl⟩
  | false =>
    have completes (t : State) : s.divided b t = .next (t.complete .clear) := if_neg (by simp [hz])
    exact ⟨_, _, hi.trans (completes t), hj.trans (completes u), fun _ => reg, rfl, rfl, rfl, fault, cause⟩

end

/-- DIVMOD with two different destinations is a division (44_divide.md R180). -/
theorem exec_divmod {d e : Reg} (h : d ≠ e) (a b : Reg) (s : State) : exec (.divmod d e a b) s = s.divided b
    ((s.setReg d (s.encode (s.value a / s.value b))).setReg e (s.encode (s.value a % s.value b))) := if_neg h

/-! ## Relations read from STATUS -/

/-- REL is read back from the STATUS word (10_state.md R28). -/
theorem rel_get_statusWord (s : State) : StatusField.rel.get s.statusWord = s.rel.code := by
  have := statusFields_lt s
  rw [StatusField.get, statusWord_toNat]
  omega

/-- COND is read back from the STATUS word (10_state.md R27). -/
theorem cond_get_statusWord (s : State) : StatusField.cond.get s.statusWord = s.cond.toNat := by
  have := statusFields_lt s
  rw [StatusField.get, statusWord_toNat]
  omega

/-- The codes of REL after a comparison of `x` with `y` (10_state.md R28, 41_comparator.md R110). -/
theorem Rel.code_ofNats (x y : Nat) : ((Rel.ofNats x y).code = 1 ↔ x < y) ∧ ((Rel.ofNats x y).code = 2 ↔ x = y)
    ∧ ((Rel.ofNats x y).code = 3 ↔ y < x) := by
  obtain h | h | h := lt_trichotomy x y
  · simp [Rel.ofNats, Rel.code, h, h.ne, h.asymm]
  · simp [Rel.ofNats, Rel.code, h]
  · simp [Rel.ofNats, Rel.code, h, h.ne', h.asymm]

/-- CMP leaves the order of the values in REL (41_comparator.md R110). -/
theorem exec_cmp (h : s.LimbsOk) (a b : Reg) :
    exec (.cmp a b) s = .next (s.complete (.relation (Rel.ofNats (s.value a) (s.value b)))) := by
  have hlen : (s.reg a).length = (s.reg b).length := (h a).1.trans (h b).1.symm
  rw [exec, execCmp, compareLimbs_eq hlen (h a).2 (h b).2]
  rfl

/-- EQ leaves in COND whether the values are equal (41_comparator.md R111). -/
theorem exec_eq (h : s.LimbsOk) (a b : Reg) :
    exec (.eq a b) s = .next (s.complete (.predicate (decide (s.value a = s.value b)))) := by
  have hlen : (s.reg a).length = (s.reg b).length := (h a).1.trans (h b).1.symm
  have same : equalLimbs (s.reg a) (s.reg b) = decide (s.value a = s.value b) := by
    rw [Bool.eq_iff_iff, equalLimbs_iff hlen, decide_eq_true_iff]
    exact ⟨congrArg (val s.cfg.base), val_inj (h a).2 (h b).2 hlen⟩
  rw [exec, execEq, same]

end Sys2Proof.Machine

namespace Sys2Proof.Proofs

open Sys2Proof.Machine

/-- Settles O28: a command that faults keeps the response, one that completes gives a response its opcode may give. -/
theorem responseFieldsByCommand : Obligations.ResponseFieldsByCommand := by
  intro i s t hf e
  obtain ⟨c, -, e'⟩ | ⟨u, p, e', hu, may⟩ := exec_shape i s
  · cases e'.symm.trans e
    exact ⟨nofun, fun _ => ⟨rfl, rfl, rfl⟩⟩
  · cases e'.symm.trans e
    obtain ⟨-, -, -, fault, -⟩ := hu.sameOutside
    refine ⟨fun _ => ⟨may.ovf, may.cond, may.rel⟩, fun faulted => ?_⟩
    simp [fault, hf] at faulted

/-- Settles O30: each command computes what it writes from the state before it, and only then writes it. -/
theorem destinationChoiceDoesNotMatter : Obligations.DestinationChoiceDoesNotMatter := by
  intro s a b d d' e e' hde hde'
  have quotient : s.WritesAlike (.divmod d e a b) (.divmod d' e' a b) d d' :=
    writesAlike_of_divided (exec_divmod hde a b s) (exec_divmod hde' a b s)
      (by simp [State.setReg_reg_ne _ _ _ hde, State.setReg_reg_ne _ _ _ hde']) rfl rfl
  have remainder : s.WritesAlike (.divmod d e a b) (.divmod d' e' a b) e e' :=
    writesAlike_of_divided (exec_divmod hde a b s) (exec_divmod hde' a b s) (by simp) rfl rfl
  have div : s.WritesAlike (.div d a b) (.div d' a b) d d' := writesAlike_of_divided rfl rfl (by simp) rfl rfl
  have mod : s.WritesAlike (.mod d a b) (.mod d' a b) d d' := writesAlike_of_divided rfl rfl (by simp) rfl rfl
  constructor
  · intro i j h
    simp only [List.mem_cons, List.not_mem_nil, or_false, Prod.mk.injEq] at h
    rcases h with ⟨rfl, rfl⟩ | ⟨rfl, rfl⟩ | ⟨rfl, rfl⟩ | ⟨rfl, rfl⟩ | ⟨rfl, rfl⟩ | ⟨rfl, rfl⟩ | ⟨rfl, rfl⟩
      | ⟨rfl, rfl⟩ | ⟨rfl, rfl⟩ | ⟨rfl, rfl⟩ | ⟨rfl, rfl⟩ | ⟨rfl, rfl⟩ | ⟨rfl, rfl⟩ | ⟨rfl, rfl⟩
    case inr.inr.inr.inl => exact div
    case inr.inr.inr.inr.inl => exact mod
    case inr.inr.inr.inr.inr.inr.inr.inr.inr.inr.inr.inr.inr => exact quotient
    all_goals exact writesAlike_of_setReg rfl rfl
  · obtain ⟨t, u, ht, hu, reg, -⟩ := remainder
    exact ⟨t, u, ht, hu, reg⟩

/-- Settles O36: a step is the unit's turn past the listed one, and that turn goes by what is pending. -/
theorem stepRunsPendingCommand : Obligations.StepRunsPendingCommand := by
  intro s ts h
  have run : step s = unitTurn (s.setTurns ts) := step_eq_unitTurn h
  rw [run]
  refine ⟨fun hb hf => ?_, unitTurn_of_not_enabled (s := s.setTurns ts)⟩
  have enabled : unitTurn (s.setTurns ts) = unitStep (s.setTurns ts) := unitTurn_of_enabled hb hf
  refine ⟨fun hp => ?_, fun w i hp hd => ?_, fun w c hp hd => ?_, fun t e => ?_⟩
  · exact ⟨_, enabled.trans (unitStep_of_init hp), rfl⟩
  · exact enabled.trans (unitStep_of_decode_ok (s := s.setTurns ts) hp hd)
  · exact ⟨_, enabled.trans (unitStep_of_decode_error (s := s.setTurns ts) hp hd), raise_faulted (s.setTurns ts) c⟩
  · exact (unitMoves_of_unitTurn e).busy_eq_false hf

/-- Settles O60: CMP and EQ leave the relation of the values in REL and COND, which STATUS shows. -/
theorem relationPseudosAreTrue : Obligations.RelationPseudosAreTrue := by
  intro s a b h
  obtain ⟨less, equal, greater⟩ := Rel.code_ofNats (s.value a) (s.value b)
  refine ⟨_, _, exec_cmp h a b, exec_eq h a b, ?_⟩
  simp only [Pseudo.truth, rel_get_statusWord, cond_get_statusWord, State.complete_rel, State.complete_cond,
    Response.relation, Response.predicate, Option.some_inj, beq_eq_decide, ← Bool.decide_or, decide_eq_decide, less,
    equal, greater, true_and]
  exact ⟨Nat.le_iff_lt_or_eq.symm, by omega, by simp⟩

end Sys2Proof.Proofs
end

section
/-!
PROOFS. The comparator (41_comparator.md R110 to R114): the order of two registers decided by their limbs, the active limb
count, and the obligations O8, O9, O10, O11 and O59.
-/

namespace Sys2Proof.Machine

/-! ## Limb vectors -/

section

variable {b : Nat}

/-- A digit below BASE does not reach the next multiple of BASE. -/
theorem digit_add_mul_lt {a v w : Nat} (ha : a < b) (h : v < w) : a + b * v < b * w :=
  calc a + b * v < b * v + b := by omega
    _ = b * (v + 1) := (Nat.mul_succ b v).symm
    _ ≤ b * w := Nat.mul_le_mul_left b h

/-- The most significant differing limb decides the order of the values (41_comparator.md R110). -/
theorem val_lt_of_top_limb_lt {l m : List Nat} (hl : ∀ x ∈ l, x < b) (hlen : l.length = m.length) {i : Nat}
    (hi : l.getD i 0 < m.getD i 0) (above : ∀ j, i < j → l.getD j 0 = m.getD j 0) : val b l < val b m := by
  induction l generalizing m i with
  | nil =>
    obtain rfl : m = [] := List.length_eq_zero_iff.mp hlen.symm
    simp at hi
  | cons a l ih =>
    obtain _ | ⟨d, m⟩ := m
    · simp at hlen
    have hlen' : l.length = m.length := Nat.succ.inj hlen
    rw [val, val]
    cases i with
    | zero =>
      have same : l = m := List.ext_getElem hlen' fun j hj hj' => by
        simpa [hj, hj'] using above (j + 1) j.succ_pos
      rw [same]
      exact Nat.add_lt_add_right hi _
    | succ i =>
      have lower : val b l < val b m := ih (fun x hx => hl x (List.mem_cons_of_mem a hx)) hlen' hi
        fun j hj => above (j + 1) (Nat.succ_lt_succ hj)
      exact (digit_add_mul_lt (hl a List.mem_cons_self) lower).trans_le (Nat.le_add_left _ d)

/-! ## The active limb count -/

theorem alc_cons_eq_zero_iff (a : Nat) (l : List Nat) : alc (a :: l) = 0 ↔ a = 0 ∧ alc l = 0 := by
  rw [alc]
  split <;> simp [*]

theorem alc_cons_eq_one_iff (a : Nat) (l : List Nat) : alc (a :: l) = 1 ↔ a ≠ 0 ∧ alc l = 0 := by
  rw [alc]
  split <;> simp [*]

theorem alc_cons_eq_add_two_iff (a : Nat) (l : List Nat) (k : Nat) : alc (a :: l) = k + 2 ↔ alc l = k + 1 := by
  rw [alc]
  split
  · split <;> omega
  · omega

/-- The active limb count is 0 exactly when every limb is 0 (41_comparator.md R113). -/
theorem alc_eq_zero_iff (l : List Nat) : alc l = 0 ↔ ∀ i, l.getD i 0 = 0 := by
  induction l with
  | nil => simp [alc]
  | cons a l ih =>
    rw [alc_cons_eq_zero_iff, ih]
    exact Nat.and_forall_add_one (p := fun i => (a :: l).getD i 0 = 0)

/-- The active limb count is one more than the index of the most significant non-zero limb (41_comparator.md R113). -/
theorem alc_eq_succ_iff (l : List Nat) (k : Nat) :
    alc l = k + 1 ↔ l.getD k 0 ≠ 0 ∧ ∀ j, k < j → l.getD j 0 = 0 := by
  induction l generalizing k with
  | nil => simp [alc]
  | cons a l ih =>
    cases k with
    | zero =>
      rw [alc_cons_eq_one_iff, alc_eq_zero_iff, ← Nat.and_forall_add_one (p := fun j => 0 < j → _)]
      simp
    | succ k =>
      rw [alc_cons_eq_add_two_iff, ih, ← Nat.and_forall_add_one (p := fun j => k + 1 < j → _)]
      simp

/-- The limbs below the active limb count hold the whole value (41_comparator.md R113). -/
theorem val_lt_pow_alc {l : List Nat} (h : ∀ x ∈ l, x < b) : val b l < b ^ alc l := by
  induction l with
  | nil => simp [val, alc]
  | cons a l ih =>
    have ha : a < b := h a List.mem_cons_self
    have hl : val b l < b ^ alc l := ih fun x hx => h x (List.mem_cons_of_mem a hx)
    rw [val, alc]
    split
    · rename_i zero
      have rest : val b l = 0 := by simpa [zero] using hl
      split <;> simp [*]
    · rw [pow_succ']
      exact digit_add_mul_lt ha hl

end

/-! ## Relations -/

theorem Rel.code_injective : Function.Injective Rel.code := fun r r' => by cases r <;> cases r' <;> simp [Rel.code]

section

variable (x y : Nat)

theorem Rel.ofNats_eq_less_iff : Rel.ofNats x y = .less ↔ x < y :=
  (Rel.code_injective.eq_iff' rfl).symm.trans (Rel.code_ofNats x y).1

theorem Rel.ofNats_eq_equal_iff : Rel.ofNats x y = .equal ↔ x = y :=
  (Rel.code_injective.eq_iff' rfl).symm.trans (Rel.code_ofNats x y).2.1

theorem Rel.ofNats_eq_greater_iff : Rel.ofNats x y = .greater ↔ y < x :=
  (Rel.code_injective.eq_iff' rfl).symm.trans (Rel.code_ofNats x y).2.2

end

/-! ## Registers -/

variable {s : State}

theorem value_eq_iff_limbs (h : s.LimbsOk) (a b : Reg) :
    s.value a = s.value b ↔ ∀ i, i < s.cfg.N → s.limb a i = s.limb b i := by
  constructor
  · intro same i _
    rw [limb_eq_digit h, limb_eq_digit h, same]
  · intro same
    rw [value_eq_sum h, value_eq_sum h]
    exact congrArg List.sum (List.map_congr_left fun i hi => by rw [same i (List.mem_range.mp hi)])

theorem value_eq_zero_iff_limbs (h : s.LimbsOk) (a : Reg) :
    s.value a = 0 ↔ ∀ i, i < s.cfg.N → s.limb a i = 0 := by
  constructor
  · intro zero i _
    rw [limb_eq_digit h, zero, Nat.zero_div, Nat.zero_mod]
  · intro zero
    rw [value_eq_sum h]
    refine List.sum_eq_zero fun x hx => ?_
    obtain ⟨i, hi, rfl⟩ := List.mem_map.mp hx
    rw [zero i (List.mem_range.mp hi), Nat.zero_mul]

/-- Two registers hold the same limbs exactly when their values are equal (41_comparator.md R114). -/
theorem value_eq_iff_reg (h : s.LimbsOk) (a b : Reg) : s.value a = s.value b ↔ s.reg a = s.reg b :=
  ⟨fun same => by rw [← encode_value h a, same, encode_value h b], congrArg (val s.cfg.base)⟩

/-- The most significant differing limb pair gives the relation of the values (41_comparator.md R110). -/
theorem ofNats_value_of_top_limb (h : s.LimbsOk) {a b : Reg} {i : Nat} (differ : s.limb a i ≠ s.limb b i)
    (above : ∀ j, i < j → s.limb a j = s.limb b j) :
    Rel.ofNats (s.value a) (s.value b) = if s.limb a i < s.limb b i then .less else .greater := by
  have hlen : (s.reg a).length = (s.reg b).length := (h a).1.trans (h b).1.symm
  split
  · rename_i less
    exact (Rel.ofNats_eq_less_iff _ _).mpr (val_lt_of_top_limb_lt (h a).2 hlen less above)
  · rename_i not_less
    have greater : s.limb b i < s.limb a i := by omega
    exact (Rel.ofNats_eq_greater_iff _ _).mpr
      (val_lt_of_top_limb_lt (h b).2 hlen.symm greater fun j hj => (above j hj).symm)

/-- ISZ leaves in COND whether the value is 0 (41_comparator.md R112). -/
theorem exec_isz (s : State) (a : Reg) :
    exec (.isz a) s = .next (s.complete (.predicate (decide (s.value a = 0)))) := by
  have zero : zeroLimbs (s.reg a) = decide (s.value a = 0) := by
    rw [Bool.eq_iff_iff, zeroLimbs_iff s.cfg.base_pos, decide_eq_true_iff, State.value]
  rw [exec, execIsz, zero]

end Sys2Proof.Machine

namespace Sys2Proof.Proofs

open Sys2Proof.Machine

/-- Settles O8: CMP leaves the order of the values in REL, and the top differing limb pair decides that order. -/
theorem cmpOrdersByTopDifferingLimb : Obligations.CmpOrdersByTopDifferingLimb := by
  refine ⟨fun s a b h => ?_, fun n a b => ?_⟩
  · exact ⟨_, exec_cmp h a b, complete_completed h _, rfl, fun _ => ofNats_value_of_top_limb h⟩
  · simpa [encode, formatR, Opcode.code] using decodeOfEncode n (.cmp a b) rfl

/-- Settles O9: EQ leaves in COND whether the values are equal, which is equality of their limbs and CMP's EQUAL. -/
theorem eqTestsEveryLimb : Obligations.EqTestsEveryLimb := by
  refine ⟨fun s a b h => ?_, fun n a b => ?_⟩
  · refine ⟨_, _, exec_eq h a b, complete_completed h _, rfl, exec_cmp h a b, ?_, ?_⟩
    · exact decide_eq_true_iff.trans (value_eq_iff_limbs h a b)
    · exact decide_eq_true_iff.trans (Rel.ofNats_eq_equal_iff _ _).symm
  · simpa [encode, formatR, Opcode.code] using decodeOfEncode n (.eq a b) rfl

/-- Settles O10: ISZ leaves in COND whether the value is 0, which is that every limb is 0. -/
theorem iszTestsEveryLimb : Obligations.IszTestsEveryLimb := by
  refine ⟨fun s a h => ?_, fun n a => ?_⟩
  · exact ⟨_, exec_isz s a, complete_completed h _, rfl, decide_eq_true_iff.trans (value_eq_zero_iff_limbs h a)⟩
  · simpa [encode, formatR, Opcode.code] using decodeOfEncode n (.isz a) rfl

/-- Settles O11: each comparator command only completes, with the relation or the predicate of the values. -/
theorem comparatorLaws : Obligations.ComparatorLaws := by
  intro s a b z h hz
  have less : Rel.ofNats (s.value a) (s.value b) = .less ↔ s.value a < s.value b := Rel.ofNats_eq_less_iff _ _
  have equal : Rel.ofNats (s.value a) (s.value b) = .equal ↔ s.value a = s.value b := Rel.ofNats_eq_equal_iff _ _
  refine ⟨_, _, _, _, exec_cmp h a b, exec_cmp h b a, exec_eq h a z, exec_isz s a, less, equal,
    Rel.ofNats_eq_greater_iff _ _, less.trans (Rel.ofNats_eq_greater_iff _ _).symm,
    equal.trans (value_eq_iff_reg h a b), ?_, ?_⟩
  · rw [hz]
  · simp

/-- Settles O59: the active limb count limb by limb, on the register's limb vector. -/
theorem activeLimbCount : Obligations.ActiveLimbCount := by
  intro s r h
  obtain ⟨hlen, hlt⟩ := h r
  exact ⟨alc_eq_zero_iff _, alc_eq_succ_iff _, (alc_le_length _).trans_eq hlen, val_lt_pow_alc hlt⟩

end Sys2Proof.Proofs
end

section
/-!
PROOFS. The additive engine (42_additive.md R130 to R134): the limbs and the carry out of each loop as one sum or one
difference of values, the four commands as writes of these, and the obligations O12 to O16.
-/

namespace Sys2Proof.Machine

/-! ## The stopping limb -/

section

variable {b : Nat}

/-- The increment copies every limb above one that does not wrap (42_additive.md R132). -/
theorem incLimbs_getD_above {l : List Nat} (hl : ∀ x ∈ l, x < b) {i j : Nat} (hi : i < l.length)
    (stop : l.getD i 0 ≠ b - 1) (hj : i < j) : (incLimbs b l).1.getD j 0 = l.getD j 0 := by
  induction l generalizing i j with
  | nil => simp at hi
  | cons a l ih =>
    obtain _ | j := j
    · omega
    unfold incLimbs
    dsimp only
    split
    · rfl
    · rename_i wraps
      cases i with
      | zero =>
        have ha : a < b := hl a List.mem_cons_self
        have below : a + 1 < b := by
          rw [List.getD_cons_zero] at stop
          omega
        simp [Nat.mod_eq_of_lt below] at wraps
      | succ i =>
        exact ih (fun x hx => hl x (List.mem_cons_of_mem a hx)) (Nat.lt_of_succ_lt_succ hi) stop
          (Nat.lt_of_succ_lt_succ hj)

/-- The decrement copies every limb above one that does not wrap (42_additive.md R133). -/
theorem decLimbs_getD_above {l : List Nat} (hl : ∀ x ∈ l, x < b) {i j : Nat} (hi : i < l.length)
    (stop : l.getD i 0 ≠ 0) (hj : i < j) : (decLimbs b l).1.getD j 0 = l.getD j 0 := by
  induction l generalizing i j with
  | nil => simp at hi
  | cons a l ih =>
    obtain _ | j := j
    · omega
    unfold decLimbs
    dsimp only
    split
    · rfl
    · rename_i wraps
      cases i with
      | zero =>
        have ha : a < b := hl a List.mem_cons_self
        rw [List.getD_cons_zero] at stop
        have less : (a + b - 1) % b = a - 1 := by
          rw [Nat.sub_add_comm (by omega), Nat.add_mod_right, Nat.mod_eq_of_lt (by omega)]
        omega
      | succ i =>
        exact ih (fun x hx => hl x (List.mem_cons_of_mem a hx)) (Nat.lt_of_succ_lt_succ hi) stop
          (Nat.lt_of_succ_lt_succ hj)

end

/-! ## Sums and differences mod BASE^N -/

/-- `V[rd] <- n mod BASE^N`, OVF being the carry of a sum `n` (42_additive.md R130). -/
def State.writeSum (s : State) (rd : Reg) (n : Nat) : State :=
  (s.setReg rd (s.encode n)).complete (.overflow (decide (s.cfg.modulus ≤ n)))

/-- `V[rd] <- (m - d) mod BASE^N`, OVF being the borrow of that difference (42_additive.md R131). -/
def State.writeDiff (s : State) (rd : Reg) (m d : Nat) : State :=
  (s.setReg rd (s.encode (m + s.cfg.modulus - d))).complete (.overflow (decide (m < d)))

variable {s : State}

@[simp] theorem State.writeSum_value (rd : Reg) (n : Nat) : (s.writeSum rd n).value rd = n % s.cfg.modulus := by
  rw [State.writeSum, State.complete_value, State.setReg_value_self]
  exact val_enc _ _

@[simp] theorem State.writeDiff_value (rd : Reg) (m d : Nat) :
    (s.writeDiff rd m d).value rd = (m + s.cfg.modulus - d) % s.cfg.modulus := by
  rw [State.writeDiff, State.complete_value, State.setReg_value_self]
  exact val_enc _ _

theorem State.writeSum_value_ne {rd q : Reg} (hq : q ≠ rd) (n : Nat) : (s.writeSum rd n).value q = s.value q :=
  State.setReg_value_ne s rd _ hq

@[simp] theorem State.writeSum_cfg (rd : Reg) (n : Nat) : (s.writeSum rd n).cfg = s.cfg := rfl
@[simp] theorem State.writeSum_ovf (rd : Reg) (n : Nat) : (s.writeSum rd n).ovf = decide (s.cfg.modulus ≤ n) := rfl
@[simp] theorem State.writeDiff_ovf (rd : Reg) (m d : Nat) : (s.writeDiff rd m d).ovf = decide (m < d) := rfl

theorem writeSum_completed (h : s.LimbsOk) (rd : Reg) (n : Nat) :
    s.Completed (s.writeSum rd n) [rd] ⟨decide (s.cfg.modulus ≤ n), false, .none⟩ := by
  obtain ⟨hlen, hlt, -⟩ := encode_ok s n
  exact setReg_completed h rd hlen hlt _

theorem writeDiff_completed (h : s.LimbsOk) (rd : Reg) (m d : Nat) :
    s.Completed (s.writeDiff rd m d) [rd] ⟨decide (m < d), false, .none⟩ := by
  obtain ⟨hlen, hlt, -⟩ := encode_ok s (m + s.cfg.modulus - d)
  exact setReg_completed h rd hlen hlt _

/-- Taking `d` away again gives the first summand, and borrows exactly when the sum carried (42_additive.md R134). -/
theorem sub_undoes_add {M a d : Nat} (ha : a < M) (hd : d ≤ M) :
    ((a + d) % M + M - d) % M = a ∧ ((a + d) % M < d ↔ M ≤ a + d) := by
  by_cases carry : M ≤ a + d
  · have wrapped : (a + d) % M = a + d - M := by
      rw [Nat.mod_eq_sub_mod carry, Nat.mod_eq_of_lt (by omega)]
    have back : a + d - M + M - d = a := by omega
    rw [wrapped, back]
    exact ⟨Nat.mod_eq_of_lt ha, by omega⟩
  · have back : a + d + M - d = a + M := by omega
    rw [Nat.mod_eq_of_lt (a := a + d) (by omega), back, Nat.add_mod_right]
    exact ⟨Nat.mod_eq_of_lt ha, by omega⟩

/-- The difference undoes the sum in value, and its borrow is the sum's carry (42_additive.md R134). -/
theorem writeDiff_writeSum (rd : Reg) {a d : Nat} (ha : a < s.cfg.modulus) (hd : d ≤ s.cfg.modulus) :
    ((s.writeSum rd (a + d)).writeDiff rd ((s.writeSum rd (a + d)).value rd) d).value rd = a
      ∧ ((s.writeSum rd (a + d)).writeDiff rd ((s.writeSum rd (a + d)).value rd) d).ovf
        = (s.writeSum rd (a + d)).ovf := by
  obtain ⟨value, borrow⟩ := sub_undoes_add ha hd
  rw [State.writeDiff_value, State.writeSum_value, State.writeSum_cfg, State.writeDiff_ovf, State.writeSum_ovf]
  exact ⟨value, decide_eq_decide.mpr borrow⟩

/-! ## What a limb loop writes -/

@[simp] theorem State.writeWithCarry_limb (rd : Reg) (x : List Nat × Nat) (i : Nat) :
    (s.writeWithCarry rd x).limb rd i = x.1.getD i 0 := by
  rw [State.limb, State.writeWithCarry, State.complete_reg, State.setReg_reg_self]

theorem val_lt_modulus {l : List Nat} (hlen : l.length = s.cfg.N) (hlt : ∀ y ∈ l, y < s.cfg.base) :
    val s.cfg.base l < s.cfg.modulus := by
  have fits := val_lt hlt
  rwa [hlen] at fits

/-- N limbs below BASE are the encoding of every number their value is congruent to (00_scope.md R12). -/
theorem eq_encode_of_val {l : List Nat} (hlen : l.length = s.cfg.N) (hlt : ∀ y ∈ l, y < s.cfg.base) {n : Nat}
    (e : val s.cfg.base l = n % s.cfg.modulus) : l = s.encode n := by
  obtain ⟨hlen', hlt', e'⟩ := encode_ok s n
  exact val_inj hlt hlt' (hlen.trans hlen'.symm) (e.trans e'.symm)

section

variable {x : List Nat × Nat} (hlen : x.1.length = s.cfg.N) (hlt : ∀ y ∈ x.1, y < s.cfg.base)
include hlen hlt

/-- Limbs and a carry that make up `n` are written as the sum `n`. -/
theorem writeWithCarry_eq_writeSum {n : Nat} (e : val s.cfg.base x.1 + s.cfg.modulus * x.2 = n) (rd : Reg) :
    s.writeWithCarry rd x = s.writeSum rd n := by
  have fits : val s.cfg.base x.1 < s.cfg.modulus := val_lt_modulus hlen hlt
  have limbs : x.1 = s.encode n :=
    eq_encode_of_val hlen hlt (by rw [← e, Nat.add_mul_mod_self_left, Nat.mod_eq_of_lt fits])
  have carry : (x.2 != 0) = decide (s.cfg.modulus ≤ n) := by
    rw [Bool.eq_iff_iff, bne_iff_ne, decide_eq_true_iff, ← e]
    constructor
    · intro nonzero
      exact le_add_left (Nat.le_mul_of_pos_right _ (Nat.pos_of_ne_zero nonzero))
    · rintro le zero
      rw [zero, Nat.mul_zero, Nat.add_zero] at le
      omega
  rw [State.writeWithCarry, limbs, carry, State.writeSum]

/-- Limbs and a borrow that make up `m - d` are written as that difference. -/
theorem writeWithCarry_eq_writeDiff {m d : Nat} (hm : m < s.cfg.modulus)
    (e : val s.cfg.base x.1 + d = m + s.cfg.modulus * x.2) (borrow_le : x.2 ≤ 1) (rd : Reg) :
    s.writeWithCarry rd x = s.writeDiff rd m d := by
  have fits : val s.cfg.base x.1 < s.cfg.modulus := val_lt_modulus hlen hlt
  obtain borrow | borrow : x.2 = 0 ∨ x.2 = 1 := by omega
  · rw [borrow, Nat.mul_zero] at e
    have wraps : m + s.cfg.modulus - d = val s.cfg.base x.1 + s.cfg.modulus := by omega
    have limbs : x.1 = s.encode (m + s.cfg.modulus - d) :=
      eq_encode_of_val hlen hlt (by rw [wraps, Nat.add_mod_right, Nat.mod_eq_of_lt fits])
    have not_less : ¬ m < d := by omega
    rw [State.writeWithCarry, limbs, borrow, State.writeDiff, decide_eq_false not_less]
    rfl
  · rw [borrow, Nat.mul_one] at e
    have exact_diff : m + s.cfg.modulus - d = val s.cfg.base x.1 := by omega
    have limbs : x.1 = s.encode (m + s.cfg.modulus - d) :=
      eq_encode_of_val hlen hlt (by rw [exact_diff, Nat.mod_eq_of_lt fits])
    have less : m < d := by omega
    rw [State.writeWithCarry, limbs, borrow, State.writeDiff, decide_eq_true less]
    rfl

end

/-! ## The four commands -/

/-- ADD writes the sum of the values (42_additive.md R130). -/
theorem exec_add_eq (h : s.LimbsOk) (rd a b : Reg) :
    exec (.add rd a b) s = .next (s.writeSum rd (s.value a + s.value b)) := by
  have same : (s.reg a).length = (s.reg b).length := (h a).1.trans (h b).1.symm
  have sum := addLimbs_val (b := s.cfg.base) same 0
  rw [(h a).1] at sum
  exact congrArg _ (writeWithCarry_eq_writeSum ((addLimbs_length same 0).trans (h a).1)
    (addLimbs_lt s.cfg.base_pos _ _ 0) sum rd)

/-- SUB writes the difference of the values (42_additive.md R131). -/
theorem exec_sub_eq (h : s.LimbsOk) (rd a b : Reg) :
    exec (.sub rd a b) s = .next (s.writeDiff rd (s.value a) (s.value b)) := by
  have same : (s.reg a).length = (s.reg b).length := (h a).1.trans (h b).1.symm
  obtain ⟨difference, borrow_le⟩ := subLimbs_val same (h b).2 (Nat.zero_le 1)
  rw [(h a).1] at difference
  exact congrArg _ (writeWithCarry_eq_writeDiff ((subLimbs_length same 0).trans (h a).1) (subLimbs_lt (h a).2 0)
    (value_lt h a) difference borrow_le rd)

/-- INC's loop writes the sum of the value and 1 (42_additive.md R132). -/
theorem writeWithCarry_incLimbs (h : s.LimbsOk) (rd a : Reg) :
    s.writeWithCarry rd (incLimbs s.cfg.base (s.reg a)) = s.writeSum rd (s.value a + 1) := by
  obtain ⟨sum, -⟩ := incLimbs_val (h a).2
  rw [(h a).1] at sum
  exact writeWithCarry_eq_writeSum ((incLimbs_length _).trans (h a).1) (incLimbs_lt s.cfg.base_pos (h a).2) sum rd

/-- DEC's loop writes the difference of the value and 1 (42_additive.md R133). -/
theorem writeWithCarry_decLimbs (h : s.LimbsOk) (rd a : Reg) :
    s.writeWithCarry rd (decLimbs s.cfg.base (s.reg a)) = s.writeDiff rd (s.value a) 1 := by
  obtain ⟨difference, borrow_le⟩ := decLimbs_val (h a).2
  rw [(h a).1] at difference
  exact writeWithCarry_eq_writeDiff ((decLimbs_length _).trans (h a).1) (decLimbs_lt s.cfg.base_pos (h a).2)
    (value_lt h a) difference borrow_le rd

theorem exec_inc_eq (h : s.LimbsOk) (rd a : Reg) : exec (.inc rd a) s = .next (s.writeSum rd (s.value a + 1)) :=
  congrArg _ (writeWithCarry_incLimbs h rd a)

theorem exec_dec_eq (h : s.LimbsOk) (rd a : Reg) : exec (.dec rd a) s = .next (s.writeDiff rd (s.value a) 1) :=
  congrArg _ (writeWithCarry_decLimbs h rd a)

end Sys2Proof.Machine

namespace Sys2Proof.Proofs

open Sys2Proof.Machine

/-- Settles O12: the adder's limbs and carry are the sum of the values. -/
theorem addWrapsAndReportsCarry : Obligations.AddWrapsAndReportsCarry := by
  refine ⟨fun s rd a b h => ?_, fun n rd a b => ?_⟩
  · exact ⟨_, exec_add_eq h rd a b, writeSum_completed h rd _, rfl, State.writeSum_value rd _⟩
  · simpa [encode, formatR, Opcode.code] using decodeOfEncode n (.add rd a b) rfl

/-- Settles O13: the subtractor's limbs and borrow are the difference of the values. -/
theorem subWrapsAndReportsBorrow : Obligations.SubWrapsAndReportsBorrow := by
  refine ⟨fun s rd a b h => ?_, fun n rd a b => ?_⟩
  · refine ⟨_, exec_sub_eq h rd a b, writeDiff_completed h rd _ _, rfl, ?_⟩
    have hb : s.value b < s.cfg.modulus := value_lt h b
    have shifted : ((s.value a + s.cfg.modulus - s.value b : Nat) : Int)
        = (s.value a : Int) - s.value b + s.cfg.modulus := by omega
    rw [State.writeDiff_value, Int.natCast_mod, shifted, Int.add_emod_right]
  · simpa [encode, formatR, Opcode.code] using decodeOfEncode n (.sub rd a b) rfl

/-- Settles O14: INC's loop writes the sum of the value and 1, and copies the limbs above the one it stops at. -/
theorem incAddsOne : Obligations.IncAddsOne := by
  refine ⟨fun s rd a h => ?_, fun n rd a => ?_⟩
  · have ha : s.value a < s.cfg.modulus := value_lt h a
    have overflows : s.value a = s.cfg.maxv ↔ s.cfg.modulus ≤ s.value a + 1 := by
      rw [Config.maxv]
      omega
    have written := writeWithCarry_incLimbs h rd a
    refine ⟨_, rfl, ?_, rfl, ?_, fun i hi stop j hj => ?_⟩
    · simpa only [written, overflows] using writeSum_completed h rd (s.value a + 1)
    · rw [written, State.writeSum_value]
    · exact (State.writeWithCarry_limb _ _ j).trans (incLimbs_getD_above (h a).2 (hi.trans_eq (h a).1.symm) stop hj)
  · simpa [encode, formatR, Opcode.code] using decodeOfEncode n (.inc rd a) rfl

/-- Settles O15: DEC's loop writes the difference of the value and 1, and copies the limbs above the one it stops at. -/
theorem decSubtractsOne : Obligations.DecSubtractsOne := by
  refine ⟨fun s rd a h => ?_, fun n rd a => ?_⟩
  · have ha : s.value a < s.cfg.modulus := value_lt h a
    have written := writeWithCarry_decLimbs h rd a
    refine ⟨_, rfl, ?_, rfl, ?_, fun i hi stop j hj => ?_⟩
    · simpa only [written, Nat.lt_one_iff] using writeDiff_completed h rd (s.value a) 1
    · rw [written, State.writeDiff_value]
      split
      · rename_i zero
        rw [zero, Nat.zero_add, Nat.mod_eq_of_lt (by omega), Config.maxv]
      · have wraps : s.value a + s.cfg.modulus - 1 = s.value a - 1 + s.cfg.modulus := by omega
        rw [wraps, Nat.add_mod_right, Nat.mod_eq_of_lt (by omega)]
    · exact (State.writeWithCarry_limb _ _ j).trans (decLimbs_getD_above (h a).2 (hi.trans_eq (h a).1.symm) stop hj)
  · simpa [encode, formatR, Opcode.code] using decodeOfEncode n (.dec rd a) rfl

/-- Settles O16: a difference undoes the sum it follows, and INC and DEC write the sum and the difference of ADD and SUB
when the second operand is 1. -/
theorem additiveLaws : Obligations.AdditiveLaws := by
  intro s rd a b one h
  have ha : s.value a < s.cfg.modulus := value_lt h a
  have hb : s.value b < s.cfg.modulus := value_lt h b
  refine ⟨fun hrd => ?_, ?_, fun is_one => ?_, fun is_one => ?_⟩
  · have limbs := (writeSum_completed h rd (s.value a + s.value b)).limbs
    have subtract := exec_sub_eq limbs rd rd b
    rw [State.writeSum_value_ne hrd.symm] at subtract
    obtain ⟨value, ovf⟩ := writeDiff_writeSum rd ha hb.le
    exact ⟨_, _, exec_add_eq h rd a b, subtract, value, ovf, rfl, rfl⟩
  · have limbs := (writeSum_completed h rd (s.value a + 1)).limbs
    obtain ⟨value, ovf⟩ := writeDiff_writeSum rd ha s.cfg.modulus_pos
    exact ⟨_, _, exec_inc_eq h rd a, exec_dec_eq limbs rd rd, value, ovf, rfl, rfl⟩
  · have add := exec_add_eq h rd a one
    rw [is_one] at add
    exact ⟨_, _, exec_inc_eq h rd a, add, rfl, rfl⟩
  · have sub := exec_sub_eq h rd a one
    rw [is_one] at sub
    exact ⟨_, _, exec_dec_eq h rd a, sub, rfl, rfl⟩

end Sys2Proof.Proofs
end

section
/-!
PROOFS. The multiplier (43_multiply.md R160 to R162): the true product as the kept partial products plus BASE^N times
what the dropped pairs make up, MUL as the write of the product, and the obligations O17 and O18.
-/

namespace Sys2Proof.Machine

/-! ## Kept and dropped partial products -/

section

variable {b : Nat}

/-- What the partial products dropped by MUL, the pairs (i, j) with n ≤ i + j, make up in units of BASE^n
(43_multiply.md R160). -/
def droppedProducts (b n : Nat) (l m : List Nat) : Nat :=
  ((List.range n).map fun i => l.getD i 0 * val b (m.drop (n - i))).sum

theorem val_drop_ne_zero_iff (hb : 0 < b) (l : List Nat) (k : Nat) :
    val b (l.drop k) ≠ 0 ↔ ∃ j, j < l.length ∧ k ≤ j ∧ l.getD j 0 ≠ 0 := by
  rw [ne_eq, val_eq_zero_iff hb]
  push Not
  constructor
  · rintro ⟨x, hx, nonzero⟩
    obtain ⟨j, hj, rfl⟩ := List.mem_drop_iff_getElem.mp hx
    exact ⟨k + j, by omega, Nat.le_add_right k j, by rwa [List.getD_eq_getElem]⟩
  · rintro ⟨j, hj, hkj, nonzero⟩
    rw [List.getD_eq_getElem _ _ hj] at nonzero
    refine ⟨l[j], List.mem_drop_iff_getElem.mpr ⟨j - k, by omega, ?_⟩, nonzero⟩
    simp only [Nat.add_sub_cancel' hkj]

/-- A digit of the first factor times the whole second factor is its kept row and what its dropped pairs make up. -/
theorem productRow_add_dropped (l : List Nat) {m : List Nat} {n i : Nat} (hm : m.length = n) (hi : i < n) :
    productRow b n l m i + b ^ n * (l.getD i 0 * val b (m.drop (n - i))) = l.getD i 0 * b ^ i * val b m := by
  have hk : n - i ≤ m.length := by omega
  have row : productRow b n l m i = l.getD i 0 * b ^ i * val b (m.take (n - i)) := by
    rw [val_take m hk, ← List.sum_map_mul_left, productRow]
    congr 1
    exact List.map_congr_left fun j _ => by rw [pow_add]; ring
  have factor : val b m = val b (m.take (n - i)) + b ^ (n - i) * val b (m.drop (n - i)) := by
    conv_lhs => rw [← List.take_append_drop (n - i) m, val_append, List.length_take_of_le hk]
  have shift : b ^ n = b ^ i * b ^ (n - i) := by rw [← pow_add, Nat.add_sub_cancel' hi.le]
  rw [row, factor, shift]
  ring

/-- The true product is the kept partial products and BASE^n times what the dropped ones make up (43_multiply.md
R160). -/
theorem keptProducts_add_dropped {l m : List Nat} {n : Nat} (hl : l.length = n) (hm : m.length = n) :
    keptProducts b n l m + b ^ n * droppedProducts b n l m = val b l * val b m := by
  have digits : val b l = ((List.range n).map fun i => l.getD i 0 * b ^ i).sum := by
    rw [← val_take l hl.ge, ← hl, List.take_length]
  rw [digits, ← List.sum_map_mul_right, keptProducts, droppedProducts, ← List.sum_map_mul_left, ← List.sum_map_add]
  congr 1
  exact List.map_congr_left fun i hi => productRow_add_dropped l hm (List.mem_range.mp hi)

/-- Something is dropped exactly when a dropped pair is non-zero (43_multiply.md R161). -/
theorem droppedProducts_ne_zero_iff (hb : 0 < b) (l : List Nat) {m : List Nat} {n : Nat} (hm : m.length = n) :
    droppedProducts b n l m ≠ 0 ↔ ∃ i j, i < n ∧ j < n ∧ n ≤ i + j ∧ l.getD i 0 * m.getD j 0 ≠ 0 := by
  have rows : droppedProducts b n l m ≠ 0 ↔ ∃ i < n, l.getD i 0 ≠ 0 ∧ val b (m.drop (n - i)) ≠ 0 := by
    simp [droppedProducts, List.sum_eq_zero_iff]
  rw [rows]
  constructor
  · rintro ⟨i, hi, left, right⟩
    obtain ⟨j, hj, hij, right⟩ := (val_drop_ne_zero_iff hb m _).mp right
    exact ⟨i, j, hi, by omega, by omega, Nat.mul_ne_zero left right⟩
  · rintro ⟨i, j, hi, hj, hij, nonzero⟩
    obtain ⟨left, right⟩ := Nat.mul_ne_zero_iff.mp nonzero
    exact ⟨i, hi, left, (val_drop_ne_zero_iff hb m _).mpr ⟨j, by omega, by omega, right⟩⟩

/-- The product reaches BASE^n exactly when a dropped pair is non-zero or the kept pairs alone reach it (43_multiply.md
R161). -/
theorem pow_le_product_iff (hb : 0 < b) {l m : List Nat} {n : Nat} (hl : l.length = n) (hm : m.length = n) :
    b ^ n ≤ val b l * val b m ↔
      (∃ i j, i < n ∧ j < n ∧ n ≤ i + j ∧ l.getD i 0 * m.getD j 0 ≠ 0) ∨ b ^ n ≤ keptProducts b n l m := by
  rw [← keptProducts_add_dropped hl hm, ← droppedProducts_ne_zero_iff hb l hm]
  constructor
  · intro le
    by_contra! ⟨nothing, less⟩
    rw [nothing, Nat.mul_zero, Nat.add_zero] at le
    omega
  · rintro (something | le)
    · exact le_add_left (Nat.le_mul_of_pos_right _ (Nat.pos_of_ne_zero something))
    · exact le_add_right le

end

/-! ## MUL and SHL by value -/

variable {s : State}

theorem keptProducts_mod_modulus (h : s.LimbsOk) (a b : Reg) :
    keptProducts s.cfg.base s.cfg.N (s.reg a) (s.reg b) % s.cfg.modulus = s.value a * s.value b % s.cfg.modulus :=
  keptProducts_mod _ _ (h a).1 (h b).1

/-- Encoding in N limbs already reduces mod BASE^N (00_scope.md R12). -/
theorem encode_mod_modulus (s : State) (n : Nat) : s.encode (n % s.cfg.modulus) = s.encode n := by
  obtain ⟨hlen, hlt, reduced⟩ := encode_ok s (n % s.cfg.modulus)
  exact eq_encode_of_val hlen hlt (reduced.trans (Nat.mod_mod _ _))

/-- MUL writes the product of the values, OVF telling whether it reaches BASE^N (43_multiply.md R160, R161). -/
theorem exec_mul_eq (h : s.LimbsOk) (rd a b : Reg) :
    exec (.mul rd a b) s = .next (s.writeSum rd (s.value a * s.value b)) := by
  rw [exec, execMul, keptProducts_mod_modulus h, encode_mod_modulus, State.writeSum]

/-- SHL writes the value times 2^ARG mod BASE^N (45_bitwise.md R213). -/
theorem writeClear_shlLimbs_value (h : s.LimbsOk) (rd a : Reg) :
    (s.writeClear rd (shlLimbs s.cfg.W s.cfg.N (s.reg a) s.argv)).value rd
      = s.value a * 2 ^ s.arg.toNat % s.cfg.modulus := by
  have hw : 0 < s.cfg.W := by
    rcases s.cfg.hW with e | e | e | e <;> omega
  rw [State.writeClear, State.complete_value, State.setReg_value_self, s.cfg.modulus_eq_two_pow]
  exact shlLimbs_val hw (h a).2 s.argv

end Sys2Proof.Machine

namespace Sys2Proof.Proofs

open Sys2Proof.Machine

/-- Settles O17: MUL writes the product, which is the kept pairs plus a multiple of BASE^N that is 0 exactly when every
dropped pair is. -/
theorem mulWrapsAndReportsOverflow : Obligations.MulWrapsAndReportsOverflow := by
  refine ⟨fun s rd a b h => ?_, fun n rd a b => ?_⟩
  · intro kept
    have wrapped := State.writeSum_value (s := s) rd (s.value a * s.value b)
    have ovf_iff : (s.writeSum rd (s.value a * s.value b)).ovf = true ↔ s.cfg.modulus ≤ s.value a * s.value b :=
      decide_eq_true_iff
    exact ⟨_, exec_mul_eq h rd a b, writeSum_completed h rd _, rfl, wrapped,
      wrapped.trans (keptProducts_mod_modulus h a b).symm, ovf_iff,
      ovf_iff.trans (pow_le_product_iff s.cfg.base_pos (h a).1 (h b).1)⟩
  · simpa [encode, formatR, Opcode.code] using decodeOfEncode n (.mul rd a b) rfl

/-- Settles O18: MUL depends on its sources only through the product of their values, and SHL writes the product with
the power of two. -/
theorem multiplicativeLaws : Obligations.MultiplicativeLaws := by
  intro s rd a b h
  have swapped := exec_mul_eq h rd b a
  rw [Nat.mul_comm] at swapped
  refine ⟨_, _, _, exec_mul_eq h rd a b, swapped, rfl, rfl, rfl, fun fits => ?_, fun k _ harg hb => ?_, rfl,
    fun hW hN ha hb => ?_⟩
  · rw [State.writeSum_ovf, decide_eq_false_iff_not, Nat.not_le] at fits
    rw [State.writeSum_value, Nat.mod_eq_of_lt fits]
  · rw [State.writeSum_value, writeClear_shlLimbs_value h, harg, hb]
  · have modulus : s.cfg.modulus = 2 ^ 32 := by rw [s.cfg.modulus_eq_two_pow, Config.totalBits, hW, hN]
    rw [State.writeSum_value, State.writeSum_ovf, ha, hb, modulus]
    decide

end Sys2Proof.Proofs
end

section
/-!
PROOFS. Division (44_divide.md R180 to R185): a division's two outcomes, the three commands as writes of the exact
quotient and remainder, the window of the reference long division, and the obligations O19 to O23.
-/

namespace Sys2Proof

open Sys2Proof.Laws

/-- The word of a command whose operands fail a check is refused with that check's cause (30_encoding.md R90). -/
theorem decode_encode_of_operandCause {n : Nat} {i : Instr} {c : Cause} (h : operandCause n i = some c) :
    decode n (encode i) = .error c := by
  obtain ⟨code, mask⟩ := encodedWord i
  exact decode_of_operandCause code mask ((assemble_encode i).symm ▸ h)

namespace Machine

/-! ## The two outcomes of a division -/

variable {s : State}

theorem divided_of_value_ne_zero {b : Reg} (hb : s.value b ≠ 0) (t : State) :
    s.divided b t = .next (t.complete .clear) := if_neg (by simpa [State.divisorZero] using hb)

theorem divided_of_value_eq_zero {b : Reg} (hb : s.value b = 0) (t : State) :
    s.divided b t = .next (s.raise .divideByZero) := if_pos (by simpa [State.divisorZero] using hb)

/-- Whatever it would have written, a division by zero only enters the fault state (60_exceptions.md R270). -/
theorem faulted_of_divided {i : Instr} {b : Reg} {t : State} (e : exec i s = s.divided b t) (hb : s.value b = 0) :
    ∃ t, exec i s = .next t ∧ s.Faulted t .divideByZero :=
  ⟨_, e.trans (divided_of_value_eq_zero hb t), raise_faulted s _⟩

/-! ## Writing a number, and a second one -/

theorem writeClear_encode_value (rd : Reg) {x : Nat} (hx : x < s.cfg.modulus) :
    (s.writeClear rd (s.encode x)).value rd = x := setReg_encode_value rd hx

theorem writeClear_encode_completed (h : s.LimbsOk) (rd : Reg) (x : Nat) :
    s.Completed (s.writeClear rd (s.encode x)) [rd] ⟨false, false, .none⟩ := by
  obtain ⟨hlen, hlt, -⟩ := encode_ok s x
  exact setReg_completed h rd hlen hlt .clear

/-- A register written before a command's end is one more destination of it. -/
theorem completed_of_setReg_completed {t : State} {r : Reg} {x : List Nat} {ds : List Reg} {p : Response}
    (h : (s.setReg r x).Completed t ds p) : s.Completed t (r :: ds) p where
  ovf := h.ovf
  cond := h.cond
  rel := h.rel
  notBusy := h.notBusy
  limbs := h.limbs
  regs := fun q hq => by
    obtain ⟨hqr, hqd⟩ := not_or.mp (List.mem_cons.not.mp hq)
    exact (h.regs q hqd).trans (State.setReg_reg_ne s r x hqr)
  rest := h.rest

/-! ## The three commands -/

/-- What DIVMOD leaves for a non-zero divisor: the quotient in `q`, the remainder in `r` (44_divide.md R180). -/
def State.writeDivMod (s : State) (q r a b : Reg) : State :=
  (s.setReg q (s.encode (s.value a / s.value b))).writeClear r (s.encode (s.value a % s.value b))

theorem exec_divmod_eq {q r : Reg} (hqr : q ≠ r) (a : Reg) {b : Reg} (hb : s.value b ≠ 0) :
    exec (.divmod q r a b) s = .next (s.writeDivMod q r a b) :=
  (exec_divmod hqr a b s).trans (divided_of_value_ne_zero hb _)

theorem exec_div_eq (rd a : Reg) {b : Reg} (hb : s.value b ≠ 0) :
    exec (.div rd a b) s = .next (s.writeClear rd (s.encode (s.value a / s.value b))) :=
  divided_of_value_ne_zero hb _

theorem exec_mod_eq (rd a : Reg) {b : Reg} (hb : s.value b ≠ 0) :
    exec (.mod rd a b) s = .next (s.writeClear rd (s.encode (s.value a % s.value b))) :=
  divided_of_value_ne_zero hb _

section

variable (h : s.LimbsOk) (a b : Reg)
include h

theorem value_div_lt_modulus : s.value a / s.value b < s.cfg.modulus := (Nat.div_le_self _ _).trans_lt (value_lt h a)

theorem value_mod_lt_modulus : s.value a % s.value b < s.cfg.modulus := (Nat.mod_le _ _).trans_lt (value_lt h a)

theorem writeDivMod_value_quotient {q r : Reg} (hqr : q ≠ r) :
    (s.writeDivMod q r a b).value q = s.value a / s.value b :=
  (State.setReg_value_ne _ r _ hqr).trans (setReg_encode_value q (value_div_lt_modulus h a b))

theorem writeDivMod_value_remainder (q r : Reg) : (s.writeDivMod q r a b).value r = s.value a % s.value b :=
  setReg_encode_value (s := s.setReg q _) r (value_mod_lt_modulus h a b)

theorem writeDivMod_completed (q r : Reg) :
    s.Completed (s.writeDivMod q r a b) [q, r] ⟨false, false, .none⟩ :=
  completed_of_setReg_completed (writeClear_encode_completed (limbsOk_setReg_encode h q _) r _)

end

/-! ## The reference long division -/

section

variable {base : Nat}

theorem pow_le_val_of_getD_ne_zero {l : List Nat} {k : Nat} (h : l.getD k 0 ≠ 0) : base ^ k ≤ val base l := by
  induction l generalizing k with
  | nil => simp at h
  | cons a l ih =>
    rw [val]
    cases k with
    | zero => exact le_add_right (Nat.one_le_iff_ne_zero.mpr h)
    | succ k =>
      rw [pow_succ']
      exact le_add_left (Nat.mul_le_mul_left base (ih h))

theorem alc_pos {l : List Nat} (h : val base l ≠ 0) (hl : ∀ x ∈ l, x < base) : 0 < alc l := by
  refine Nat.pos_of_ne_zero fun none => h ?_
  simpa [none] using val_lt_pow_alc hl

/-- The most significant non-zero limb bounds the value from below (41_comparator.md R113). -/
theorem pow_alc_sub_one_le_val {l : List Nat} (h : val base l ≠ 0) : base ^ (alc l - 1) ≤ val base l := by
  cases e : alc l with
  | zero => exact Nat.one_le_iff_ne_zero.mpr h
  | succ k =>
    obtain ⟨top, -⟩ := (alc_eq_succ_iff l k).mp e
    exact pow_le_val_of_getD_ne_zero top

/-- The limbs from the active limb count on add nothing to the value (41_comparator.md R113). -/
theorem val_take_alc {l : List Nat} (h : ∀ x ∈ l, x < base) : val base (l.take (alc l)) = val base l := by
  have active : (l.take (alc l)).length = alc l := List.length_take_of_le (alc_le_length l)
  have fits := val_lt fun x (hx : x ∈ l.take (alc l)) => h x (List.mem_of_mem_take hx)
  rw [active] at fits
  exact (val_take_modEq l (alc_le_length l)).eq_of_lt_of_lt fits (val_lt_pow_alc h)

/-- The limbs from `k` on, `j` of them, as step 3 loads them into the window (44_divide.md R183). -/
theorem val_window {l : List Nat} {k : Nat} (hk : k ≤ l.length) (j : Nat) :
    val base ((l.drop k).take j) * base ^ k + val base (l.take k) = val base (l.take (k + j)) := by
  rw [List.take_add, val_append, List.length_take_of_le hk, Nat.mul_comm, Nat.add_comm]

/-- A non-zero value no greater than another has no more active limbs (41_comparator.md R113). -/
theorem alc_le_alc {a b : List Nat} (hbase : 1 < base) (ha : ∀ x ∈ a, x < base) (hb : val base b ≠ 0)
    (le : val base b ≤ val base a) : alc b ≤ alc a := by
  have powers : base ^ (alc b - 1) < base ^ alc a :=
    (pow_alc_sub_one_le_val hb).trans_lt (le.trans_lt (val_lt_pow_alc ha))
  have exponents : alc b - 1 < alc a := (Nat.pow_lt_pow_iff_right hbase).mp powers
  omega

/-- The window starts below the divisor and its digits continue the dividend's, so the digits of step 4 are those of the
quotient (44_divide.md R183). -/
theorem longDivide_eq {a b : List Nat} (hbase : 1 < base) (ha : ∀ x ∈ a, x < base) (hb : ∀ x ∈ b, x < base)
    (hd : val base b ≠ 0) : longDivide base a b = (val base a / val base b, val base a % val base b) := by
  unfold longDivide
  split
  · rename_i less
    rw [Nat.div_eq_of_lt less, Nat.mod_eq_of_lt less]
  · rename_i not_less
    have hab : alc b ≤ alc a := alc_le_alc hbase ha hd (Nat.not_lt.mp not_less)
    have hb_pos : 0 < alc b := alc_pos hd hb
    have ha_len : alc a ≤ a.length := alc_le_length a
    have low_le : alc a - alc b + 1 ≤ a.length := by omega
    have window_lt : val base ((a.drop (alc a - alc b + 1)).take (alc b - 1)) < val base b := by
      refine lt_of_lt_of_le (val_lt fun x hx => ha x (List.mem_of_mem_drop (List.mem_of_mem_take hx))) ?_
      exact (Nat.pow_le_pow_right (Nat.zero_lt_of_lt hbase) (List.length_take_le _ _)).trans (pow_alc_sub_one_le_val hd)
    have active : alc a - alc b + 1 + (alc b - 1) = alc a := by omega
    dsimp only
    rw [digitLoop_eq (Nat.pos_of_ne_zero hd) a _ 0 _ low_le window_lt, val_window low_le, active, val_take_alc ha,
      Nat.zero_mul, Nat.zero_add]

/-- A window below the divisor with one limb appended holds it fewer than BASE times (44_divide.md R183, step 4b). -/
theorem trialSubtract_digit_lt {d win limb : Nat} (hwin : win < d) (hlimb : limb < base) :
    (trialSubtract d (win * base + limb) (win * base + limb) 0).2 < base := by
  have appended : win * base + limb < d * base := by
    rw [Nat.add_comm, Nat.mul_comm, Nat.mul_comm d]
    exact digit_add_mul_lt hlimb hwin
  rw [trialSubtract_eq (Nat.zero_lt_of_lt hwin) _ _ _ le_rfl, Nat.zero_add]
  exact Nat.div_lt_of_lt_mul appended

end

end Machine

end Sys2Proof

namespace Sys2Proof.Proofs

open Sys2Proof.Machine

/-- Settles O19: for a non-zero divisor DIVMOD is two register writes, and decoding checks that they are two. -/
theorem divmodGivesQuotientAndRemainder : Obligations.DivmodGivesQuotientAndRemainder := by
  refine ⟨fun s rd rd2 a b h hrd hb => ?_, fun s rd rd2 a b hrd hb => ?_, fun n rd rd2 a b => ?_⟩
  · exact ⟨_, exec_divmod_eq hrd a hb, writeDivMod_completed h a b rd rd2, rfl,
      writeDivMod_value_quotient h a b hrd, writeDivMod_value_remainder h a b rd rd2⟩
  · exact faulted_of_divided (exec_divmod hrd a b s) hb
  · have word : decode n (encode (.divmod rd rd2 a b))
        = if rd = rd2 then .error .operandConflict else .ok (.divmod rd rd2 a b) := by
      split
      · rename_i same
        exact decode_encode_of_operandCause (if_pos same)
      · rename_i differ
        exact decodeOfEncode n _ (decide_eq_true differ)
    simpa [encode, formatR, Opcode.code] using word

/-- Settles O20: for a non-zero divisor DIV is one register write, of the quotient. -/
theorem divGivesQuotient : Obligations.DivGivesQuotient := by
  refine ⟨fun s rd a b h hb => ?_, fun s rd a b hb => ?_, fun n rd a b => ?_⟩
  · exact ⟨_, exec_div_eq rd a hb, writeClear_encode_completed h rd _, rfl,
      writeClear_encode_value rd (value_div_lt_modulus h a b)⟩
  · exact faulted_of_divided rfl hb
  · simpa [encode, formatR, Opcode.code] using decodeOfEncode n (.div rd a b) rfl

/-- Settles O21: for a non-zero divisor MOD is one register write, of the remainder. -/
theorem modGivesRemainder : Obligations.ModGivesRemainder := by
  refine ⟨fun s rd a b h hb => ?_, fun s rd a b hb => ?_, fun n rd a b => ?_⟩
  · exact ⟨_, exec_mod_eq rd a hb, writeClear_encode_completed h rd _, rfl,
      writeClear_encode_value rd (value_mod_lt_modulus h a b)⟩
  · exact faulted_of_divided rfl hb
  · simpa [encode, formatR, Opcode.code] using decodeOfEncode n (.mod rd a b) rfl

/-- Settles O22: quotient and remainder fit in N limbs, so the three commands write them without a wrap. -/
theorem divisionLaws : Obligations.DivisionLaws := by
  intro s q r a b h hqr hb
  have le_maxv (x : Reg) : s.value x ≤ s.cfg.maxv := Nat.le_sub_one_of_lt (value_lt h x)
  refine ⟨_, _, _, exec_divmod_eq hqr a hb, exec_div_eq q a hb, exec_mod_eq r a hb, ?_⟩
  rw [writeDivMod_value_quotient h a b hqr, writeDivMod_value_remainder h a b q r,
    writeClear_encode_value q (value_div_lt_modulus h a b), writeClear_encode_value r (value_mod_lt_modulus h a b)]
  exact ⟨Nat.div_add_mod' _ _, Nat.mod_lt _ (Nat.pos_of_ne_zero hb), Nat.div_le_self _ _, le_maxv a, le_maxv b,
    rfl, rfl, rfl, rfl, rfl, fun less => ⟨Nat.div_eq_of_lt less, Nat.mod_eq_of_lt less⟩⟩

/-- Settles O23: the window of a register's active limbs starts below the divisor, and each trial subtraction divides. -/
theorem longDivisionIsDivMod : Obligations.LongDivisionIsDivMod := by
  intro s a b h hb
  exact ⟨longDivide_eq s.cfg.base_gt_one (h a).2 (h b).2 hb, fun _ _ => trialSubtract_digit_lt⟩

end Sys2Proof.Proofs
end

section
/-!
PROOFS. The bitwise engine (45_bitwise.md R210 to R215): the logic commands as one operation on bits, the two shifts as
arithmetic on the value, and the obligations O24 to O27.
-/

namespace Sys2Proof

theorem Config.W_pos (c : Config) : 0 < c.W := by
  rcases c.hW with e | e | e | e <;> omega

namespace Machine

/-! ## Operations on bits -/

/-- `f` acts on the bits of two numbers as `g` does on two bits, and makes no bit where both numbers have none. -/
structure ActsOnBits (f : Nat → Nat → Nat) (g : Bool → Bool → Bool) : Prop where
  testBit : ∀ x y j, (f x y).testBit j = g (x.testBit j) (y.testBit j)
  no_bits : g false false = false

theorem and_actsOnBits : ActsOnBits (· &&& ·) and := ⟨Nat.testBit_and, rfl⟩
theorem or_actsOnBits : ActsOnBits (· ||| ·) or := ⟨Nat.testBit_or, rfl⟩
theorem xor_actsOnBits : ActsOnBits (· ^^^ ·) xor := ⟨Nat.testBit_xor, rfl⟩

section

variable {f : Nat → Nat → Nat} {g : Bool → Bool → Bool} (hf : ActsOnBits f g)
include hf

theorem ActsOnBits.zero_zero : f 0 0 = 0 :=
  Nat.eq_of_testBit_eq fun j => by rw [hf.testBit, Nat.zero_testBit, hf.no_bits]

theorem ActsOnBits.lt_two_pow {w x y : Nat} (hx : x < 2 ^ w) (hy : y < 2 ^ w) : f x y < 2 ^ w := by
  refine Nat.lt_pow_two_of_testBit _ fun j hj => ?_
  have pow_le : 2 ^ w ≤ 2 ^ j := Nat.pow_le_pow_right (by omega) hj
  rw [hf.testBit, Nat.testBit_lt_two_pow (hx.trans_le pow_le), Nat.testBit_lt_two_pow (hy.trans_le pow_le), hf.no_bits]

end

/-! ## AND, OR and XOR -/

/-- What AND, OR and XOR leave: `f` limb by limb in rd, the response cleared (45_bitwise.md R210 to R212). -/
def State.writeLogic (s : State) (f : Nat → Nat → Nat) (rd a b : Reg) : State :=
  s.writeClear rd (List.zipWith f (s.reg a) (s.reg b))

section

variable (s : State) (rd a b : Reg)

theorem exec_and : exec (.and rd a b) s = .next (s.writeLogic (· &&& ·) rd a b) := rfl
theorem exec_or : exec (.or rd a b) s = .next (s.writeLogic (· ||| ·) rd a b) := rfl
theorem exec_xor : exec (.xor rd a b) s = .next (s.writeLogic (· ^^^ ·) rd a b) := rfl

theorem writeLogic_comm {f : Nat → Nat → Nat} (hc : ∀ x y, f x y = f y x) :
    s.writeLogic f rd a b = s.writeLogic f rd b a := by
  rw [State.writeLogic, State.writeLogic, List.zipWith_comm_of_comm hc]

end

section

variable {s : State} (h : s.LimbsOk) {f : Nat → Nat → Nat} {g : Bool → Bool → Bool} (hf : ActsOnBits f g)
  (rd a b : Reg)
include h hf

theorem writeLogic_completed : s.Completed (s.writeLogic f rd a b) [rd] ⟨false, false, .none⟩ := by
  have length : (List.zipWith f (s.reg a) (s.reg b)).length = s.cfg.N := by
    rw [List.length_zipWith, (h a).1, (h b).1, Nat.min_self]
  exact setReg_completed h rd length (zipWith_lt (fun _ _ => hf.lt_two_pow) (h a).2 (h b).2) .clear

theorem writeLogic_limb (i : Nat) : (s.writeLogic f rd a b).limb rd i = f (s.limb a i) (s.limb b i) := by
  rw [State.limb, State.writeLogic, State.writeClear, State.complete_reg, State.setReg_reg_self]
  exact zipWith_getD f hf.zero_zero ((h a).1.trans (h b).1.symm) i

theorem writeLogic_value : (s.writeLogic f rd a b).value rd = f (s.value a) (s.value b) := by
  rw [State.writeLogic, State.writeClear, State.complete_value, State.setReg_value_self]
  exact val_zipWith s.cfg.W_pos f g hf.testBit hf.zero_zero (fun _ _ => hf.lt_two_pow) ((h a).1.trans (h b).1.symm)
    (h a).2 (h b).2

/-- Bit j of the result depends on bit j of the sources alone (45_bitwise.md R215). -/
theorem writeLogic_value_testBit (j : Nat) : ((s.writeLogic f rd a b).value rd).testBit j
    = g ((s.value a).testBit j) ((s.value b).testBit j) := by
  rw [writeLogic_value h hf, hf.testBit]

end

/-! ## SHL and SHR -/

/-- What SHL leaves (45_bitwise.md R213). -/
def State.writeShl (s : State) (rd a : Reg) : State :=
  s.writeClear rd (shlLimbs s.cfg.W s.cfg.N (s.reg a) s.argv)

/-- What SHR leaves (45_bitwise.md R214). -/
def State.writeShr (s : State) (rd a : Reg) : State :=
  s.writeClear rd (shrLimbs s.cfg.W s.cfg.N (s.reg a) s.argv)

section

variable (s : State) (rd a : Reg)

theorem exec_shl : exec (.shl rd a) s = .next (s.writeShl rd a) := rfl
theorem exec_shr : exec (.shr rd a) s = .next (s.writeShr rd a) := rfl

@[simp] theorem State.writeShl_cfg : (s.writeShl rd a).cfg = s.cfg := rfl
@[simp] theorem State.writeShr_cfg : (s.writeShr rd a).cfg = s.cfg := rfl
@[simp] theorem State.writeShl_arg : (s.writeShl rd a).arg = s.arg := rfl
@[simp] theorem State.writeShr_arg : (s.writeShr rd a).arg = s.arg := rfl

end

/-- Nothing is left of a number shifted left by TB or more (45_bitwise.md R213). -/
theorem mul_two_pow_mod_modulus_eq_zero {c : Config} {n : Nat} (hn : c.totalBits ≤ n) (x : Nat) :
    x * 2 ^ n % c.modulus = 0 := by
  rw [c.modulus_eq_two_pow]
  exact Nat.mod_eq_zero_of_dvd (dvd_mul_of_dvd_right (pow_dvd_pow 2 hn) x)

section

variable {s : State} (h : s.LimbsOk) (rd a : Reg)
include h

theorem writeShl_completed : s.Completed (s.writeShl rd a) [rd] ⟨false, false, .none⟩ :=
  setReg_completed h rd (shlLimbs_length _ _ _ _) (shlLimbs_lt _ _ (h a).2 _) .clear

theorem writeShr_completed : s.Completed (s.writeShr rd a) [rd] ⟨false, false, .none⟩ :=
  setReg_completed h rd (shrLimbs_length _ _ _ _) (shrLimbs_lt _ _ (h a).2 _) .clear

theorem writeShl_value : (s.writeShl rd a).value rd = s.value a * 2 ^ s.arg.toNat % s.cfg.modulus :=
  writeClear_shlLimbs_value h rd a

theorem writeShr_value : (s.writeShr rd a).value rd = s.value a / 2 ^ s.arg.toNat := by
  rw [State.writeShr, State.writeClear, State.complete_value, State.setReg_value_self]
  exact shrLimbs_val s.cfg.W_pos (h a).1 (h a).2 s.argv

/-- Nothing is left of a value shifted right by TB or more (45_bitwise.md R214). -/
theorem value_div_two_pow_eq_zero {n : Nat} (hn : s.cfg.totalBits ≤ n) : s.value a / 2 ^ n = 0 := by
  have fits : s.value a < 2 ^ s.cfg.totalBits := s.cfg.modulus_eq_two_pow ▸ value_lt h a
  exact Nat.div_eq_of_lt (fits.trans_le (Nat.pow_le_pow_right (by omega) hn))

/-! ## Two shifts in a row -/

/-- Shifted left and back, a value keeps its low TB - n bits (45_bitwise.md R215). -/
theorem writeShl_writeShr_value (hn : s.arg.toNat < s.cfg.totalBits) :
    ((s.writeShl rd a).writeShr rd rd).value rd = s.value a % 2 ^ (s.cfg.totalBits - s.arg.toNat) := by
  have modulus : s.cfg.modulus = 2 ^ (s.cfg.totalBits - s.arg.toNat) * 2 ^ s.arg.toNat := by
    rw [s.cfg.modulus_eq_two_pow, ← pow_add, Nat.sub_add_cancel hn.le]
  rw [writeShr_value (writeShl_completed h rd a).limbs, writeShl_value h, State.writeShl_arg, modulus,
    Nat.mul_mod_mul_right, Nat.mul_div_cancel _ (Nat.two_pow_pos _)]

/-- Shifted right and back, a value has its low n bits cleared (45_bitwise.md R215). -/
theorem writeShr_writeShl_value :
    ((s.writeShr rd a).writeShl rd rd).value rd = s.value a / 2 ^ s.arg.toNat * 2 ^ s.arg.toNat := by
  rw [writeShl_value (writeShr_completed h rd a).limbs, writeShr_value h, State.writeShr_arg, State.writeShr_cfg]
  exact Nat.mod_eq_of_lt ((Nat.div_mul_le_self _ _).trans_lt (value_lt h a))

/-- Two left shifts are one by the sum (45_bitwise.md R215). -/
theorem writeShl_writeShl_value (m n : Native) :
    ((((s.setArg m).writeShl rd a).setArg n).writeShl rd rd).value rd
      = s.value a * 2 ^ (m.toNat + n.toNat) % s.cfg.modulus := by
  have first := writeShl_value (s := s.setArg m) h rd a
  have second := writeShl_value (s := ((s.setArg m).writeShl rd a).setArg n)
    (writeShl_completed (s := s.setArg m) h rd a).limbs rd rd
  rw [State.setArg_value, first] at second
  exact second.trans (by simp [pow_add, Nat.mul_assoc])

/-- Two right shifts are one by the sum (45_bitwise.md R215). -/
theorem writeShr_writeShr_value (m n : Native) :
    ((((s.setArg m).writeShr rd a).setArg n).writeShr rd rd).value rd = s.value a / 2 ^ (m.toNat + n.toNat) := by
  have first := writeShr_value (s := s.setArg m) h rd a
  have second := writeShr_value (s := ((s.setArg m).writeShr rd a).setArg n)
    (writeShr_completed (s := s.setArg m) h rd a).limbs rd rd
  rw [State.setArg_value, first] at second
  exact second.trans (by simp [pow_add, Nat.div_div_eq_div_mul])

end

/-- Numbers whose sum fits ARG fit it too, and ARG holds each as it is (10_state.md R34). -/
theorem toNat_ofNat_add {m n : Nat} (hmn : m + n < 2 ^ 64) :
    (BitVec.ofNat 64 m).toNat + (BitVec.ofNat 64 n).toNat = (BitVec.ofNat 64 (m + n)).toNat := by
  simp only [BitVec.toNat_ofNat]
  omega

end Machine

end Sys2Proof

namespace Sys2Proof.Proofs

open Sys2Proof.Machine

/-- Settles O24: the three commands are one write, of an operation that acts on bits. -/
theorem logicActsOnEveryLimb : Obligations.LogicActsOnEveryLimb := by
  refine ⟨fun s rd a b h => ⟨?_, ?_, ?_⟩, fun n rd a b => ⟨?_, ?_, ?_⟩⟩
  · exact ⟨_, exec_and s rd a b, writeLogic_completed h and_actsOnBits rd a b, rfl,
      writeLogic_limb h and_actsOnBits rd a b, writeLogic_value h and_actsOnBits rd a b⟩
  · exact ⟨_, exec_or s rd a b, writeLogic_completed h or_actsOnBits rd a b, rfl,
      writeLogic_limb h or_actsOnBits rd a b, writeLogic_value h or_actsOnBits rd a b⟩
  · exact ⟨_, exec_xor s rd a b, writeLogic_completed h xor_actsOnBits rd a b, rfl,
      writeLogic_limb h xor_actsOnBits rd a b, writeLogic_value h xor_actsOnBits rd a b⟩
  · simpa [encode, formatR, Opcode.code] using decodeOfEncode n (.and rd a b) rfl
  · simpa [encode, formatR, Opcode.code] using decodeOfEncode n (.or rd a b) rfl
  · simpa [encode, formatR, Opcode.code] using decodeOfEncode n (.xor rd a b) rfl

/-- Settles O25: the limb and bit split of SHL multiplies the value by 2^n mod 2^TB. -/
theorem shlShiftsLeftByArg : Obligations.ShlShiftsLeftByArg := by
  refine ⟨fun s rd a h => ⟨_, exec_shl s rd a, writeShl_completed h rd a, rfl, ?_⟩, fun n rd a => ?_⟩
  · rw [writeShl_value h]
    split
    · rename_i hn
      exact mul_two_pow_mod_modulus_eq_zero hn _
    · rfl
  · simpa [encode, formatR, Opcode.code] using decodeOfEncode n (.shl rd a) rfl

/-- Settles O26: the limb and bit split of SHR divides the value by 2^n, which is more than the value from TB on. -/
theorem shrShiftsRightByArg : Obligations.ShrShiftsRightByArg := by
  refine ⟨fun s rd a h => ?_, fun n rd a => ?_⟩
  · have value := writeShr_value h rd a
    exact ⟨_, exec_shr s rd a, writeShr_completed h rd a, rfl, value,
      fun hn => value.trans (value_div_two_pow_eq_zero h a hn)⟩
  · simpa [encode, formatR, Opcode.code] using decodeOfEncode n (.shr rd a) rfl

/-- Settles O27: the logic commands write the same with their sources swapped and act bit by bit, and two shifts in a
row multiply and divide by powers of two. -/
theorem bitwiseLaws : Obligations.BitwiseLaws := by
  refine ⟨fun s rd a b h => ?_, fun s rd a h => ⟨fun hn => ?_, ?_⟩, fun s rd a n1 n2 h hn => ⟨?_, ?_⟩⟩
  · refine ⟨_, _, _, _, _, _, exec_and s rd a b, exec_and s rd b a, exec_or s rd a b, exec_or s rd b a,
      exec_xor s rd a b, exec_xor s rd b a, ?_, ?_, ?_, fun j => ⟨?_, ?_, ?_⟩⟩
    · rw [writeLogic_comm s rd a b Nat.and_comm]
    · rw [writeLogic_comm s rd a b Nat.or_comm]
    · rw [writeLogic_comm s rd a b Nat.xor_comm]
    · exact writeLogic_value_testBit h and_actsOnBits rd a b j
    · exact writeLogic_value_testBit h or_actsOnBits rd a b j
    · exact writeLogic_value_testBit h xor_actsOnBits rd a b j
  · exact ⟨_, _, exec_shl s rd a, exec_shr _ rd rd, writeShl_writeShr_value h rd a hn⟩
  · exact ⟨_, _, exec_shr s rd a, exec_shl _ rd rd, writeShr_writeShl_value h rd a⟩
  · refine ⟨_, _, _, exec_shl _ rd a, exec_shl _ rd rd, exec_shl _ rd a, ?_⟩
    rw [writeShl_writeShl_value h, toNat_ofNat_add hn]
    exact (writeShl_value (s := s.setArg (BitVec.ofNat 64 (n1 + n2))) h rd a).symm
  · refine ⟨_, _, _, exec_shr _ rd a, exec_shr _ rd rd, exec_shr _ rd a, ?_⟩
    rw [writeShr_writeShr_value h, toNat_ofNat_add hn]
    exact (writeShr_value (s := s.setArg (BitVec.ofNat 64 (n1 + n2))) h rd a).symm

end Sys2Proof.Proofs
end

section
/-!
PROOFS. Data movement and the native codec (46_move_and_native.md R240 to R246): the words of format L, a number written
to or read from the 64-bit CSRs, one limb of a register, and the obligations O1 to O7.
-/

namespace Sys2Proof

open Sys2Proof.Laws

/-! ## Words -/

/-- A word with opcode 0 and any other bit set is refused: NOP uses no field (30_encoding.md R86). -/
theorem decode_of_nop_mismatch {n : Nat} {w : CmdWord} (hc : w.toNat % 64 = 0) (hw : w ≠ 0) :
    decode n w = .error .reservedNonzero := by
  have whole : w &&& Opcode.nop.mask = w := BitVec.and_allOnes
  exact decode_of_mismatch (o := .nop) ((field_opcode w).trans hc) (whole.symm ▸ hw)

/-- A command whose only operand check is its limb index is refused from N on (30_encoding.md R90). -/
theorem decode_encode_of_limbIdx {n : Nat} {i : Instr} {idx : LimbIdx}
    (h : operandCause n i = if n ≤ idx.val then some .badLimbIndex else none) :
    decode n (encode i) = if idx.val < n then .ok i else .error .badLimbIndex := by
  split
  · rename_i small
    exact decode_encode (encodedWord i) (h.trans (if_neg small.not_ge))
  · rename_i large
    exact decode_encode_of_operandCause (h.trans (if_pos (not_lt.mp large)))

/-! ## Limbs, values and 64 bits -/

/-- A limb is never wider than a 64-bit CSR (00_scope.md R4). -/
theorem Config.base_le (c : Config) : c.base ≤ 2 ^ 64 := by
  have width : c.W ≤ 64 := by rcases c.hW with e | e | e | e <;> omega
  exact Nat.pow_le_pow_right (by decide) width

namespace Machine

variable {s : State}

/-- TB bits hold every ARG when there are 64 of them (46_move_and_native.md R243). -/
theorem arg_lt_modulus (s : State) (hTB : 64 ≤ s.cfg.totalBits) : s.arg.toNat < s.cfg.modulus := by
  rw [s.cfg.modulus_eq_two_pow]
  exact s.arg.isLt.trans_le (Nat.pow_le_pow_right (by decide) hTB)

/-- At most 64 bits fit RESULT whatever they are (46_move_and_native.md R244). -/
theorem value_lt_of_totalBits_le (h : s.LimbsOk) (a : Reg) (hTB : s.cfg.totalBits ≤ 64) : s.value a < 2 ^ 64 := by
  have fits : s.value a < 2 ^ s.cfg.totalBits := s.cfg.modulus_eq_two_pow ▸ value_lt h a
  exact fits.trans_le (Nat.pow_le_pow_right (by decide) hTB)

theorem limb_lt (h : s.LimbsOk) (a : Reg) (i : Nat) : s.limb a i < s.cfg.base := getD_lt s.cfg.base_pos (h a).2 i

/-- A value needs more than limb 0 exactly when a limb above limb 0 is not zero (00_scope.md R12). -/
theorem base_le_value_iff (h : s.LimbsOk) (a : Reg) : s.cfg.base ≤ s.value a ↔ ∃ i, 1 ≤ i ∧ s.limb a i ≠ 0 := by
  constructor
  · intro large
    have more : s.cfg.base ^ 1 < s.cfg.base ^ alc (s.reg a) := by
      rw [pow_one]
      exact large.trans_lt (val_lt_pow_alc (h a).2)
    have active : 1 < alc (s.reg a) := (Nat.pow_lt_pow_iff_right s.cfg.base_gt_one).mp more
    obtain ⟨top, -⟩ := (alc_eq_succ_iff (s.reg a) (alc (s.reg a) - 1)).mp (by omega)
    exact ⟨_, by omega, top⟩
  · rintro ⟨i, hi, nonzero⟩
    exact (Nat.le_self_pow (by omega) _).trans (pow_le_val_of_getD_ne_zero nonzero)

/-! ## LDN -/

/-- Reducing mod BASE^N drops no digit below N (00_scope.md R12). -/
theorem mod_modulus_digit (c : Config) (x : Nat) {i : Nat} (hi : i < c.N) :
    x % c.modulus / c.base ^ i % c.base = x / c.base ^ i % c.base := by
  have modulus : c.modulus = c.base ^ i * (c.base * c.base ^ (c.N - i - 1)) := by
    rw [← pow_succ', ← pow_add, Config.modulus]
    congr 1
    omega
  rw [modulus, Nat.mod_mul_right_div_self, Nat.mod_mul_right_mod]

/-- LDN writes ARGV as a sum that may carry out of BASE^N (46_move_and_native.md R243). -/
theorem exec_ldn_eq (s : State) (rd : Reg) : exec (.ldn rd) s = .next (s.writeSum rd s.arg.toNat) := by
  rw [exec, execLdn, encode_mod_modulus]
  rfl

theorem writeSum_limb (h : s.LimbsOk) (rd : Reg) (n : Nat) {i : Nat} (hi : i < s.cfg.N) :
    (s.writeSum rd n).limb rd i = n / s.cfg.base ^ i % s.cfg.base := by
  rw [limb_eq_digit (writeSum_completed h rd n).limbs, State.writeSum_value, State.writeSum_cfg,
    mod_modulus_digit s.cfg n hi]

/-! ## One limb -/

theorem setLimb_completed (h : s.LimbsOk) (r : Reg) (i : Nat) {x : Nat} (hx : x < s.cfg.base) (p : Response) :
    s.Completed ((s.setLimb r i x).complete p) [r] p := by
  obtain ⟨hlen, hlt⟩ := h r
  refine setReg_completed h r ((List.length_set ..).trans hlen) (fun y hy => ?_) p
  obtain old | rfl := List.mem_or_eq_of_mem_set hy
  · exact hlt y old
  · exact hx

theorem setLimb_limb_self (h : s.LimbsOk) (r : Reg) {i : Nat} (hi : i < s.cfg.N) (x : Nat) :
    (s.setLimb r i x).limb r i = x := by
  have inside : i < (s.reg r).length := hi.trans_eq (h r).1.symm
  simp [State.limb, State.setLimb, inside]

theorem setLimb_limb_ne (s : State) (r : Reg) {i j : Nat} (hj : j ≠ i) (x : Nat) :
    (s.setLimb r i x).limb r j = s.limb r j := by
  simp [State.limb, State.setLimb, List.getElem?_set_ne hj.symm]

/-- SETL with an index below N writes that limb (46_move_and_native.md R245). -/
theorem exec_setl_eq (r : Reg) {idx : LimbIdx} (hi : idx.val < s.cfg.N) :
    exec (.setl r idx) s = .next ((s.setLimb r idx.val (s.arg.toNat % s.cfg.base)).complete
      (.overflow (decide (s.cfg.base ≤ s.arg.toNat)))) := if_neg hi.not_ge

/-- GETL with an index below N reads that limb (46_move_and_native.md R246). -/
theorem exec_getl_eq (r : Reg) {idx : LimbIdx} (hi : idx.val < s.cfg.N) :
    exec (.getl r idx) s = .next ((s.setResult (BitVec.ofNat 64 (s.limb r idx.val))).complete .clear) :=
  if_neg hi.not_ge

end Machine

end Sys2Proof

namespace Sys2Proof.Proofs

open Sys2Proof.Machine

/-- Settles O1: NOP only completes, and its mask leaves no bit free. -/
theorem nopOnlyClearsResponse : Obligations.NopOnlyClearsResponse := by
  refine ⟨fun s h => ?_, fun n => ?_, fun n w => decode_of_nop_mismatch, fun s => ⟨rfl, rfl⟩⟩
  · exact ⟨_, rfl, complete_completed h .clear, rfl⟩
  · exact decodeOfEncode n .nop rfl

/-- Settles O2: CLR writes the encoding of 0, which is the only legal register of value 0. -/
theorem clrZeroesDestination : Obligations.ClrZeroesDestination := by
  refine ⟨fun s rd h => ?_, fun n rd => ?_⟩
  · have zero : s.encode 0 = List.replicate s.cfg.N 0 :=
      (eq_encode_of_val List.length_replicate (fun y hy => List.eq_of_mem_replicate hy ▸ s.cfg.base_pos)
        ((val_replicate_zero _).trans (Nat.zero_mod _).symm)).symm
    exact ⟨_, rfl, writeClear_encode_completed h rd 0, rfl, writeClear_encode_value rd s.cfg.modulus_pos,
      (State.setReg_reg_self s rd _).trans zero⟩
  · simpa [encode, formatR, Opcode.code] using decodeOfEncode n (.clr rd) rfl

/-- Settles O3: MOV writes the limbs of a legal register, read before the write. -/
theorem movCopiesAllLimbs : Obligations.MovCopiesAllLimbs := by
  refine ⟨fun s rd a h => ?_, fun n rd a => ?_⟩
  · obtain ⟨hlen, hlt⟩ := h a
    exact ⟨_, rfl, setReg_completed h rd hlen hlt .clear, rfl, State.setReg_reg_self s rd _⟩
  · simpa [encode, formatR, Opcode.code] using decodeOfEncode n (.mov rd a) rfl

/-- Settles O4: LDN writes ARGV mod BASE^N, whose digits below N are those of ARGV. -/
theorem ldnImportsArg : Obligations.LdnImportsArg := by
  refine ⟨fun s rd h => ?_, fun n rd => ?_⟩
  · exact ⟨_, exec_ldn_eq s rd, writeSum_completed h rd _, rfl, State.writeSum_value rd _,
      fun i hi => writeSum_limb h rd _ hi, fun hTB => decide_eq_false (arg_lt_modulus s hTB).not_ge⟩
  · simpa [encode, formatR, Opcode.code] using decodeOfEncode n (.ldn rd) rfl

/-- Settles O5: RESULT takes the value mod 2^64, which loses nothing of 64 bits and, at W = 64, all above limb 0. -/
theorem tonExportsToResult : Obligations.TonExportsToResult := by
  refine ⟨fun s a h => ?_, fun n a => ?_⟩
  · refine ⟨_, rfl, setResult_completed h _ _, BitVec.toNat_ofNat _ _,
      fun hTB => decide_eq_false (value_lt_of_totalBits_le h a hTB).not_ge, fun hW => decide_eq_true_iff.trans ?_⟩
    have base : s.cfg.base = 2 ^ 64 := by rw [Config.base, hW]
    exact base ▸ base_le_value_iff h a
  · simpa [encode, formatR, Opcode.code] using decodeOfEncode n (.ton a) rfl

/-- Settles O6: SETL sets one element of the limb list, and decoding checks that there is one. -/
theorem setlWritesOneLimb : Obligations.SetlWritesOneLimb := by
  refine ⟨fun s r idx h hi => ?_, fun n r idx => ?_⟩
  · refine ⟨_, exec_setl_eq r hi, setLimb_completed h r _ (Nat.mod_lt _ s.cfg.base_pos) _, rfl,
      setLimb_limb_self h r hi _, fun j hj => setLimb_limb_ne s r hj _, fun hW => decide_eq_false ?_⟩
    rw [Config.base, hW]
    exact s.arg.isLt.not_ge
  · exact decode_encode_of_limbIdx (i := .setl r idx) rfl

/-- Settles O7: GETL copies a limb to RESULT, which holds every limb, and decoding checks that there is one. -/
theorem getlReadsOneLimb : Obligations.GetlReadsOneLimb := by
  refine ⟨fun s r idx h hi => ?_, fun n r idx => ?_⟩
  · have fits : s.limb r idx.val < 2 ^ 64 := (limb_lt h r idx.val).trans_le s.cfg.base_le
    exact ⟨_, exec_getl_eq r hi, setResult_completed h _ _,
      (BitVec.toNat_ofNat _ _).trans (Nat.mod_eq_of_lt fits)⟩
  · exact decode_encode_of_limbIdx (i := .getl r idx) rfl

end Sys2Proof.Proofs
end

section
/-!
PROOFS. Faults (60_exceptions.md R269 to R277): which command faults at execution, fault entry by the unit and by the
host, the fault state under every turn but a reset, and the obligations O31, O37, O38, O40, O41 and O42.
-/

namespace Sys2Proof.Machine

variable {s : State}

/-! ## Faults at execution -/

theorem wouldDivideByZero_iff (s : State) (i : Instr) : s.wouldDivideByZero i = true ↔ ∃ rs2, s.value rs2 = 0 ∧
    ∃ rd rs1, i = .div rd rs1 rs2 ∨ i = .mod rd rs1 rs2 ∨ ∃ rd2, i = .divmod rd rd2 rs1 rs2 := by
  cases i <;> simp [State.wouldDivideByZero, State.divisorZero]

section

variable {i : Instr} (hw : i.wellFormed s.cfg.N = true)

include hw

/-- A well-formed command with a zero divisor takes the fault and nothing else (60_exceptions.md R270). -/
theorem exec_of_wouldDivideByZero (hz : s.wouldDivideByZero i = true) : exec i s = .next (s.raise .divideByZero) := by
  obtain ⟨b, hb, d, a, rfl | rfl | ⟨e, rfl⟩⟩ := (wouldDivideByZero_iff s i).mp hz
  · exact divided_of_value_eq_zero hb _
  · exact divided_of_value_eq_zero hb _
  · have hde : d ≠ e := by simpa [Instr.wellFormed] using hw
    exact (exec_divmod hde a b s).trans (divided_of_value_eq_zero hb _)

/-- Every other well-formed command completes, whatever its operands (60_exceptions.md R269). -/
theorem exec_completes_of_not_wouldDivideByZero (hz : s.wouldDivideByZero i = false) :
    ∃ t, exec i s = .next t ∧ t.busy = false ∧ t.fault = s.fault ∧ t.cause = s.cause := by
  have nonzero {b : Reg} (h : s.divisorZero b = false) : s.value b ≠ 0 := by simpa [State.divisorZero] using h
  cases i with
  | setl r idx => exact ⟨_, exec_setl_eq r (by simpa [Instr.wellFormed] using hw), rfl, rfl, rfl⟩
  | getl r idx => exact ⟨_, exec_getl_eq r (by simpa [Instr.wellFormed] using hw), rfl, rfl, rfl⟩
  | divmod d e a b =>
    have hde : d ≠ e := by simpa [Instr.wellFormed] using hw
    exact ⟨_, exec_divmod_eq hde a (nonzero hz), rfl, rfl, rfl⟩
  | div d a b => exact ⟨_, exec_div_eq d a (nonzero hz), rfl, rfl, rfl⟩
  | mod d a b => exact ⟨_, exec_mod_eq d a (nonzero hz), rfl, rfl, rfl⟩
  | _ => exact ⟨_, rfl, rfl, rfl, rfl⟩

end

/-! ## The unit's turn on a faulting command -/

section

variable {w : CmdWord} (hb : s.busy = true) (hf : s.fault = false) (hp : s.pend = .command w)

include hb hf hp

theorem unitTurn_faulted_of_decode_error {c : Cause} (hd : decode s.cfg.N w = .error c) :
    ∃ t, unitTurn s = .next t ∧ s.Faulted t c :=
  ⟨_, (unitTurn_of_enabled hb hf).trans (unitStep_of_decode_error hp hd), raise_faulted s c⟩

/-- A decoded command is well-formed, so only its divisor can fault it (60_exceptions.md R272). -/
theorem unitTurn_faulted_of_wouldDivideByZero {i : Instr} (hd : decode s.cfg.N w = .ok i)
    (hz : s.wouldDivideByZero i = true) : ∃ t, unitTurn s = .next t ∧ s.Faulted t .divideByZero := by
  obtain ⟨-, hw⟩ := Proofs.encodeOfDecode s.cfg.N w i hd
  have run : unitTurn s = exec i s := (unitTurn_of_enabled hb hf).trans (unitStep_of_decode_ok hp hd)
  exact ⟨_, run.trans (exec_of_wouldDivideByZero hw hz), raise_faulted s _⟩

end

/-- The 41 values of bits 5:0 that are no opcode (30_encoding.md R89). -/
theorem decode_of_unassigned_value {w : CmdWord}
    (h : w.toNat % 64 ∈ [0x07, 0x0B, 0x0C, 0x0D, 0x0E, 0x0F, 0x14, 0x15, 0x16, 0x17, 0x19, 0x1A, 0x1B, 0x1F, 0x23]
      ∨ 0x26 ≤ w.toNat % 64) (n : Nat) : decode n w = .error .illegalOpcode := by
  refine decode_of_unassigned fun o hc => ?_
  rw [← field_opcode, hc] at h
  revert h
  cases o <;> decide

/-! ## Protocol faults -/

/-- A protocol fault with nothing pending abandons nothing (60_exceptions.md R271). -/
theorem protocolFault_of_pend_eq_none (hp : s.pend = .none) : s.protocolFault = s.raise .hostProtocol := by
  simp [State.protocolFault, State.abandon, hp]

/-- A protocol fault spoils at most what the pending command would have written (60_exceptions.md R271). -/
theorem protocolFault_kept {w : CmdWord} {i : Instr} (hp : s.pend = .command w) (hd : decode s.cfg.N w = .ok i) :
    s.RegsKept s.protocolFault i.dests ∧ (i.writesResult = false → s.protocolFault.result = s.result) := by
  rw [State.protocolFault]
  obtain ⟨-, -, same | ⟨w', i', hp', hd', regs, result⟩⟩ := abandon_spec s
  · rw [same]
    exact ⟨fun _ _ => rfl, fun _ => rfl⟩
  · obtain rfl : w = w' := by simpa [hp] using hp'
    obtain rfl : i = i' := by simpa [hd] using hd'
    exact ⟨regs, result⟩

/-- In the normal state an access that is no violation leaves FAULT at 0 (60_exceptions.md R274). -/
theorem hostAccess_fault_of_not_violation {a : HostAccess} (hf : s.fault = false) (h : ¬ s.Violation a) :
    (hostAccess a s).fault = false := by
  cases a with
  | read offset width => exact (hostRead_sameMachine_of_not_violation h).fault.trans hf
  | write offset width data =>
    obtain ⟨c, rfl⟩ | unlisted := Csr.at_cases offset
    · rw [hostAccess, hostWrite_of_not_violation hf h]
      cases c <;> exact hf
    · exact absurd (violation_write_of_unlisted unlisted s width data) h

/-! ## The fault state -/

theorem State.SameMachine.trans {t u : State} (h : s.SameMachine t) (h' : t.SameMachine u) : s.SameMachine u where
  cfg := h'.cfg.trans h.cfg
  v := h'.v.trans h.v
  cmd := h'.cmd.trans h.cmd
  arg := h'.arg.trans h.arg
  result := h'.result.trans h.result
  busy := h'.busy.trans h.busy
  ovf := h'.ovf.trans h.ovf
  cond := h'.cond.trans h.cond
  rel := h'.rel.trans h.rel
  fault := h'.fault.trans h.fault
  cause := h'.cause.trans h.cause
  pend := h'.pend.trans h.pend

section

variable (hf : s.fault = true)

include hf

/-- In the fault state a host access does no more than deliver data (60_exceptions.md R273). -/
theorem hostAccess_of_fault (a : HostAccess) : s.SameMachine (hostAccess a s) ∧ (hostAccess a s).turns = s.turns := by
  obtain e | ⟨x, e⟩ | ⟨e, -⟩ | ⟨w, -, -, normal⟩ | ⟨x, -, -, normal⟩ | ⟨-, normal⟩ := hostAccess_cases a s
  · exact e.symm ▸ ⟨sameMachine_refl s, rfl⟩
  · exact e.symm ▸ ⟨sameMachine_deliver s x, rfl⟩
  · exact e.symm ▸ ⟨sameMachine_deliverFree s, rfl⟩
  all_goals simp [hf] at normal

theorem unitTurn_of_fault : unitTurn s = .next s := unitTurn_of_not_enabled (by simp [hf])

/-- Only a reset changes the machine in the fault state (60_exceptions.md R273, R276). -/
theorem takeTurn_of_fault {t : Turn} (ht : t ≠ .reset) {u : State} (e : takeTurn t s = .next u) :
    s.SameMachine u ∧ u.turns = s.turns := by
  cases t with
  | host a =>
    cases e
    exact hostAccess_of_fault hf a
  | unit =>
    cases (unitTurn_of_fault hf).symm.trans e
    exact ⟨sameMachine_refl s, rfl⟩
  | reset => exact absurd rfl ht

theorem hostRead_of_fault_unlisted {offset : Nat} (h : Csr.at offset = none) (width : Nat) :
    hostRead offset width s = s.deliver 0 := by
  simp [hostRead, h, hf]

/-- A step in the fault state with no reset listed keeps the machine, and lists none after it. -/
theorem step_of_fault (hr : Turn.reset ∉ s.turns) {u : State} (e : step s = .next u) :
    s.SameMachine u ∧ Turn.reset ∉ u.turns := by
  cases ht : s.turns with
  | nil =>
    rw [step, ht] at e
    cases (unitTurn_of_fault hf).symm.trans e
    exact ⟨sameMachine_refl s, hr⟩
  | cons t ts =>
    rw [step, ht] at e
    simp only [ht, List.mem_cons, not_or] at hr
    obtain ⟨first, rest⟩ := hr
    obtain ⟨same, turns⟩ := takeTurn_of_fault (s := s.setTurns ts) hf (Ne.symm first) e
    exact ⟨(sameMachine_setTurns s ts).trans same, turns ▸ rest⟩

end

/-- `k + 1` steps that end in a state are a step and `k` steps from where it leads. -/
theorem step_of_stepN_succ {k : Nat} {t : State} (e : stepN (k + 1) s = .next t) :
    ∃ u, step s = .next u ∧ stepN k u = .next t := by
  rw [stepN] at e
  split at e
  · exact ⟨_, ‹_›, e⟩
  · cases e
  · cases e

/-- A run in the fault state with no reset listed keeps the machine (60_exceptions.md R273, R276). -/
theorem stepN_of_fault {t : State} (k : Nat) (hf : s.fault = true) (hr : Turn.reset ∉ s.turns)
    (e : stepN k s = .next t) : s.SameMachine t := by
  induction k generalizing s with
  | zero =>
    cases e
    exact sameMachine_refl _
  | succ k ih =>
    obtain ⟨u, first, rest⟩ := step_of_stepN_succ e
    obtain ⟨same, hr'⟩ := step_of_fault hf hr first
    exact same.trans (ih (same.fault.trans hf) hr' rest)

end Sys2Proof.Machine

namespace Sys2Proof.Proofs

open Sys2Proof.Machine

/-- Settles O31: a zero divisor is the one test that a well-formed command can fail. -/
theorem onlyZeroDivisorFaultsAtExecute : Obligations.OnlyZeroDivisorFaultsAtExecute := by
  intro i s hw
  cases hz : s.wouldDivideByZero i with
  | true => exact ⟨_, exec_of_wouldDivideByZero hw hz, rfl, .inl ⟨(wouldDivideByZero_iff s i).mp hz, raise_faulted s _⟩⟩
  | false =>
    have no_zero_division := (wouldDivideByZero_iff s i).not.mp (by simp [hz])
    obtain ⟨t, e, idle, fault, cause⟩ := exec_completes_of_not_wouldDivideByZero hw hz
    refine ⟨t, e, idle, .inr ⟨fun b hb d d2 a => ⟨fun hi => ?_, fun hi => ?_, fun hi => ?_⟩, fault, cause⟩⟩
    · exact no_zero_division ⟨b, hb, d, a, .inl hi⟩
    · exact no_zero_division ⟨b, hb, d, a, .inr (.inl hi)⟩
    · exact no_zero_division ⟨b, hb, d, a, .inr (.inr ⟨d2, hi⟩)⟩

/-- Settles O37: the unit faults by `raise` alone, and a violation by `raise` after it has abandoned what was pending. -/
theorem faultEntryIsPreciseOrAbandons : Obligations.FaultEntryIsPreciseOrAbandons := by
  refine ⟨fun s t hf e ht => ?_, fun s a w i hf hp hd hv => ?_⟩
  · cases unitMoves_of_unitTurn e with
    | waits => simp [hf] at ht
    | endsInit => simp [hf] at ht
    | faults _ _ hc => exact ⟨raise_faulted s _, hc⟩
    | completes _ _ _ hu _ =>
      obtain ⟨-, -, -, fault, -⟩ := hu.sameOutside
      simp [fault, hf] at ht
  · obtain ⟨regs, result⟩ := protocolFault_kept hp hd
    rw [hostAccess_of_violation hf hv]
    exact ⟨rfl, rfl, rfl, rfl, regs, result, by simp⟩

/-- Settles O38: the decoder's causes come before execution, and a violation takes no notice of the word. -/
theorem earlierCauseWins : Obligations.EarlierCauseWins := by
  intro s w hb hf hp
  refine ⟨fun c => unitTurn_faulted_of_decode_error hb hf hp, fun rd rd2 rs1 rs2 hz hd => ?_,
    fun rd rs1 rs2 hw _ => ?_, fun h => ?_, fun a hv => ?_⟩
  · rcases hd with hd | hd | hd <;>
      exact unitTurn_faulted_of_wouldDivideByZero hb hf hp hd (by simp [State.wouldDivideByZero, State.divisorZero, hz])
  · have word : w = encode (.divmod rd rd rs1 rs2) := by simpa [encode, formatR, Opcode.code] using hw
    have conflict : operandCause s.cfg.N (.divmod rd rd rs1 rs2) = some .operandConflict := if_pos rfl
    exact unitTurn_faulted_of_decode_error hb hf hp (word ▸ decode_encode_of_operandCause conflict)
  · exact unitTurn_faulted_of_decode_error hb hf hp (decode_of_unassigned_value h _)
  · rw [hostAccess_of_violation hf hv]
    exact ⟨rfl, rfl⟩

/-- Settles O40: the unit waits, a write has no effect and a read delivers what the CSR holds. -/
theorem faultStateIsQuiescent : Obligations.FaultStateIsQuiescent := by
  intro s hf
  have read (c : Csr) : (hostRead c.offset c.width s).readData = some (s.csrValue c) :=
    congrArg State.readData (hostRead_of_mayRead c (.inl hf))
  refine ⟨fun t u ht e => (takeTurn_of_fault hf ht e).1, fun _ _ _ => if_pos hf, read .cmd, read .arg, read .result,
    read .status, read .config, fun offset width h => ?_⟩
  obtain ⟨c, rfl⟩ | unlisted := Csr.at_cases offset
  · cases c <;> simp [Csr.offset] at h
  · exact congrArg State.readData (hostRead_of_fault_unlisted hf unlisted width)

/-- Settles O41, by induction on the number of steps. -/
theorem firstCauseIsKept : Obligations.FirstCauseIsKept := by
  refine ⟨fun s t k hf hr e => ?_, fun s => ⟨_, rfl, rfl, rfl⟩⟩
  have same := stepN_of_fault k hf hr e
  exact ⟨same.fault.trans hf, same.cause, same⟩

/-- Settles O42: a violation is a protocol fault, and no other access touches FAULT. -/
theorem hostViolationsFault : Obligations.HostViolationsFault := by
  refine fun s a hf => ⟨⟨fun h => ?_, fun hv => ?_⟩, fun hv => ?_⟩
  · by_contra hv
    simp [hostAccess_fault_of_not_violation hf hv] at h
  · rw [hostAccess_of_violation hf hv]
    rfl
  · rw [hostAccess_of_violation hf hv]
    refine ⟨rfl, rfl, rfl, by simp, by simp, by simp, by simp, by simp, by simp, fun hp => ?_⟩
    rw [protocolFault_of_pend_eq_none hp]
    exact ⟨rfl, rfl⟩

end Sys2Proof.Proofs
end

section
/-!
PROOFS. Reset and progress (70_reset_and_hazards.md R301 to R309): what no turn writes, the end of initialisation, the run to
the end of the listed turns, and the obligations O46, O51 and O56.
-/

namespace Sys2Proof.Machine

variable {s : State}

/-! ## What a turn leaves unchanged -/

/-- The unit never writes CMD or ARG (70_reset_and_hazards.md R304), nor the listed turns (log 2). -/
theorem State.UnitMoves.frame {t : State} (m : s.UnitMoves t) : t.cmd = s.cmd ∧ t.arg = s.arg ∧ t.turns = s.turns := by
  cases m with
  | completes _ _ _ hu _ =>
    obtain ⟨-, cmd, arg, -, -, turns, -, -⟩ := hu.sameOutside
    exact ⟨cmd, arg, turns⟩
  | _ => exact ⟨rfl, rfl, rfl⟩

/-- While BUSY = 1 the host cannot write CMD or ARG, for such a write is a violation (10_state.md R38). -/
theorem hostAccess_cmd_arg_of_busy (hb : s.busy = true) (a : HostAccess) :
    (hostAccess a s).cmd = s.cmd ∧ (hostAccess a s).arg = s.arg := by
  obtain e | ⟨x, e⟩ | ⟨e, -⟩ | ⟨w, -, idle, -⟩ | ⟨x, -, idle, -⟩ | ⟨e, -⟩ := hostAccess_cases a s
  case inr.inr.inr.inl | inr.inr.inr.inr.inl => simp [hb] at idle
  all_goals simp [e]

theorem hostAccess_turns (a : HostAccess) (s : State) : (hostAccess a s).turns = s.turns := by
  obtain e | ⟨x, e⟩ | ⟨e, -⟩ | ⟨w, e, -⟩ | ⟨x, e, -⟩ | ⟨e, -⟩ := hostAccess_cases a s <;> simp [e]

/-- No agent's turn lists or drops a turn (log 2). -/
theorem takeTurn_turns {t : Turn} {u : State} (e : takeTurn t s = .next u) : u.turns = s.turns := by
  cases t with
  | host a =>
    cases e
    exact hostAccess_turns a s
  | unit =>
    obtain ⟨-, -, turns⟩ := (unitMoves_of_unitTurn e).frame
    exact turns
  | reset =>
    cases e
    rfl

/-! ## The end of initialisation -/

/-- While INIT is pending the machine is as reset left it (70_reset_and_hazards.md R300, R301). -/
theorem State.Inv.eq_resetAgent (h : s.Inv) (hp : s.pend = .init) : s = resetAgent s := h.initIsReset hp

/-- At the end of initialisation STATUS reads 0 (70_reset_and_hazards.md R301). -/
theorem resetAgent_endInit_statusWord (s : State) : (resetAgent s).endInit.statusWord = 0#32 := by
  simp [State.statusWord, resetAgent, State.resetOf, Rel.code, Cause.code]

/-! ## The run to the end of the listed turns -/

/-- In a run BUSY is 0 after the unit's turn: the normal state ends what is pending, and the fault state is idle
(60_exceptions.md R273, 70_reset_and_hazards.md R309). -/
theorem State.UnitMoves.busy_eq_false_of_inv {t : State} (m : s.UnitMoves t) (h : s.Inv) : t.busy = false := by
  cases hf : s.fault with
  | false => exact m.busy_eq_false hf
  | true =>
    by_contra hb
    have ht : t.busy = true := by simpa using hb
    have same : t = s := m.eq_of_busy ht
    rw [same, h.faultIdle hf] at ht
    cases ht

theorem stepN_succ_of_step {u : State} (e : step s = .next u) (k : Nat) : stepN (k + 1) s = stepN k u := by
  rw [stepN, e]

/-- From a state of the run invariant the listed turns are taken in order, and the unit's turn after them ends what is
pending (70_reset_and_hazards.md R309; log 2). -/
theorem State.Inv.stepN_past_turns (h : s.Inv) {ts : List Turn} (hts : s.turns = ts) :
    ∃ t, stepN (ts.length + 1) s = .next t ∧ t.busy = false ∧ t.Inv := by
  induction ts generalizing s with
  | nil =>
    obtain ⟨t, e, m⟩ := h.unitTurn
    have last : step s = .next t := by
      rw [step, hts]
      exact e
    exact ⟨t, stepN_succ_of_step last 0, m.busy_eq_false_of_inv h, m.inv h⟩
  | cons t ts ih =>
    obtain ⟨u, e, hu, -⟩ := ((sameMachine_setTurns s ts).inv h).takeTurn t
    have first : step s = .next u := by
      rw [step, hts]
      exact e
    obtain ⟨v, run, done⟩ := ih hu (takeTurn_turns e)
    exact ⟨v, (stepN_succ_of_step first _).trans run, done⟩

end Sys2Proof.Machine

namespace Sys2Proof.Proofs

open Sys2Proof.Machine

/-- Settles O56, by induction on the listed turns. -/
theorem pendingWorkCompletes : Obligations.PendingWorkCompletes := fun _ h => h.stepN_past_turns rfl

/-- Settles O46: the unit's frame holds CMD and ARG, and R38 denies the host their writes while BUSY = 1. -/
theorem argStableWhileBusy : Obligations.ArgStableWhileBusy := by
  refine ⟨fun s u e => ?_, fun s a hb => (hostAccess_cmd_arg_of_busy hb a).symm⟩
  obtain ⟨cmd, arg, -⟩ := (unitMoves_of_unitTurn e).frame
  exact ⟨arg, cmd⟩

/-- Settles O51: while INIT is pending the state is the reset state, and the unit's turn on it is `endInit`. -/
theorem initOnlyClearsBusy : Obligations.InitOnlyClearsBusy := by
  intro s h hp
  have reset : s = resetAgent s := h.eq_resetAgent hp
  have hb : s.busy = true := congrArg State.busy reset
  have hf : s.fault = false := congrArg State.fault reset
  exact ⟨(congrArg State.statusWord reset).trans (resetAgent_statusWord s), s.endInit,
    (unitTurn_of_enabled hb hf).trans (unitStep_of_init hp), rfl,
    (congrArg (·.endInit.statusWord) reset).trans (resetAgent_endInit_statusWord s)⟩

end Sys2Proof.Proofs
end
